-- ==== Sys2Proof/Word.lean ====
section
/-! DEFINITION. The one data type of CORE: the unsigned byte (R10), and its width (R7). -/

namespace Sys2Proof

/-- XLEN (R7): the width in bits of every data value. -/
@[simp] abbrev Config.XLEN : Nat := 8

/-- An unsigned value of XLEN bits: a register, a memory cell, the flags register, an opcode or operand byte
(R10).  No operation reads it as signed. -/
abbrev Byte := BitVec Config.XLEN

end Sys2Proof
end

