-- ==== Sys2Proof/Config.lean ====
section
/-! DEFINITION. The fixed parameters of R7, the launch parameters of R8 that are not reset contents, and
the one free value (MODZERO_PC, R87).  Each fixed parameter is one constant, and what follows from it is written in
its terms (D29).  The defaults of the launch parameters, the table of R67 among them, stand in Decode.lean. -/

namespace Sys2Proof.Config

/-- NREG (R7, R21): general registers, indices 0 to 7. -/
@[simp] abbrev NREG : Nat := 8

/-- SP_INDEX (R7, R22): register 7 is the stack pointer. -/
@[simp] abbrev SP_INDEX : Nat := 7

/-- SP_RESET (R7): "initialized to 0xF4". -/
@[simp] abbrev SP_RESET : Byte := 0xF4

/-- MEM_SIZE (R7, R46): cells of 8 bits, addresses 0 to 255. -/
@[simp] abbrev MEM_SIZE : Nat := 256

/-- FL_EQ's bit number (R7, R33): bit 0 = equal. -/
@[simp] abbrev FL_EQ_BIT : Nat := 0

/-- FL_GT's bit number (R7, R33): bit 1 = greater-than. -/
@[simp] abbrev FL_GT_BIT : Nat := 1

/-- FL_LT's bit number (R7, R33): bit 2 = less-than. -/
@[simp] abbrev FL_LT_BIT : Nat := 2

/-- The index byte of the stack pointer (R22). -/
@[simp] abbrev SP : Byte := BitVec.ofNat XLEN SP_INDEX

/-- FL_EQ's value, that of its bit: 1 (R33). -/
@[simp] abbrev FL_EQ : Byte := BitVec.ofNat XLEN (2 ^ FL_EQ_BIT)

/-- FL_GT's value, that of its bit: 2 (R33). -/
@[simp] abbrev FL_GT : Byte := BitVec.ofNat XLEN (2 ^ FL_GT_BIT)

/-- FL_LT's value, that of its bit: 4 (R33). -/
@[simp] abbrev FL_LT : Byte := BitVec.ofNat XLEN (2 ^ FL_LT_BIT)

/-- MAX_INSN_LEN (R7, R61): opcode plus at most two operands. -/
@[simp] abbrev MAX_INSN_LEN : Nat := 3

/-- FETCH_WINDOW (R7, R78): bytes read at every fetch. -/
@[simp] abbrev FETCH_WINDOW : Nat := 3

/-- OPCODE_COUNT (R7, C2): the count the document gives. -/
@[simp] abbrev OPCODE_COUNT : Nat := 22

/-- The opcodes the document names (R3, R7). -/
@[simp] abbrev NAMED_OPCODE_COUNT : Nat := 20

/-- HLT's opcode byte, the document's (R67, D29). -/
@[simp] abbrev OPCODE_HLT : Byte := 0x01

/-- PRN's opcode byte, the document's (R67, D29). -/
@[simp] abbrev OPCODE_PRN : Byte := 0x47

/-- LDI's opcode byte, the document's (R67, D29). -/
@[simp] abbrev OPCODE_LDI : Byte := 0x82

/-- IMAGE_BASE (R7): the address the image is placed from. -/
@[simp] abbrev IMAGE_BASE : Nat := 0

/-- How far past the CALL its return address lies: "this 2-byte instruction" (R141). -/
@[simp] abbrev CALL_LENGTH : Nat := 2

/-- The advance that MODZERO_PC may draw: the set is p and p + 3 (R87, D11). -/
@[simp] abbrev MODZERO_ADVANCE : Nat := 3

/-- PC_RESET (R8, D4): the spec's own decision, 0.  See log entry 4. -/
@[simp] abbrev PC_RESET : Nat := 0

/-- MODZERO_PC's draw (R87, D11): whether `pc` advances in the step in which a MOD by zero halts.
The spec leaves it open, so it is a FREE VALUE with no body: nothing can be proved of it.  It is applied
to the draw counter of State and to the address of the MOD.  Log entry 6. -/
opaque modZeroAdvances (draw p : Nat) : Bool

end Sys2Proof.Config

namespace Sys2Proof

/-- OPCODE_MAP (R8, R67, D2): the opcode byte of each named operation.  Its default is the table of R67
(`OPCODE_MAP`); which maps agree with the spec is `OpcodeMap.wf`. -/
structure OpcodeMap where
  HLT : Byte
  RET : Byte
  PUSH : Byte
  POP : Byte
  PRN : Byte
  CALL : Byte
  JMP : Byte
  JEQ : Byte
  JNE : Byte
  NOT : Byte
  LDI : Byte
  ADD : Byte
  MUL : Byte
  MOD : Byte
  CMP : Byte
  AND : Byte
  OR : Byte
  XOR : Byte
  SHL : Byte
  SHR : Byte
  deriving DecidableEq, Repr

/-- The launch parameters of R8 that are not reset contents: model arguments, fixed for a run.  `step` takes one
argument, so State carries them; no step changes them (log entry 5). -/
structure Params where
  /-- OPCODE_MAP (R67, D2). -/
  opcodeMap : OpcodeMap
  /-- UNNAMED_OPCODES (R70, D3): at most two bytes outside OPCODE_MAP that the model refuses. -/
  unnamedOpcodes : List Byte
  /-- BRANCH_CHECKS_UNTAKEN (R153, D12): an untaken JEQ or JNE index-checks its operand too. -/
  branchChecksUntaken : Bool
  deriving DecidableEq, Repr

end Sys2Proof
end

