-- ==== Sys2Proof/Syntax.lean ====
section
/-! DEFINITION. The syntax of CORE: the 20 named operations (R3), the instruction terms (one constructor
per row of spec/opcode_table.json) and the fetch window (R78). -/

namespace Sys2Proof

/-- The 20 named operations (R3), in the order of the opcode map (R67). -/
inductive Mnemonic where
  | HLT | RET
  | PUSH | POP | PRN | CALL | JMP | JEQ | JNE | NOT
  | LDI
  | ADD | MUL | MOD | CMP | AND | OR | XOR | SHL | SHR
  deriving DecidableEq, Repr

/-- Every named operation, once. -/
def Mnemonic.all : List Mnemonic :=
  [.HLT, .RET, .PUSH, .POP, .PRN, .CALL, .JMP, .JEQ, .JNE, .NOT,
   .LDI, .ADD, .MUL, .MOD, .CMP, .AND, .OR, .XOR, .SHL, .SHR]

/-- An instruction with its operands.  A register operand is the WHOLE operand byte, 0 to 255 (R65): an
index above 7 is syntax, and raises InvalidRegister when the instruction uses it (R27, R28). -/
inductive Instr where
  /-- HLT, format Z (R155). -/
  | hlt
  /-- RET, format Z (R145). -/
  | ret
  /-- PUSH Ra, format R (R131). -/
  | push (a : Byte)
  /-- POP Ra, format R (R135). -/
  | pop (a : Byte)
  /-- PRN Ra, format R (R129). -/
  | prn (a : Byte)
  /-- CALL Ra, format R (R141). -/
  | call (a : Byte)
  /-- JMP Ra, format R (R148). -/
  | jmp (a : Byte)
  /-- JEQ Ra, format R (R150). -/
  | jeq (a : Byte)
  /-- JNE Ra, format R (R152). -/
  | jne (a : Byte)
  /-- NOT Ra, format R (R115): one operand (R114, D28). -/
  | not (a : Byte)
  /-- LDI Ra, imm, format RI (R126). -/
  | ldi (a imm : Byte)
  /-- ADD Ra, Rb, format RR (R103). -/
  | add (a b : Byte)
  /-- MUL Ra, Rb, format RR (R105). -/
  | mul (a b : Byte)
  /-- MOD Ra, Rb, format RR (R121). -/
  | mod (a b : Byte)
  /-- CMP Ra, Rb, format RR (R107). -/
  | cmp (a b : Byte)
  /-- AND Ra, Rb, format RR (R110). -/
  | and (a b : Byte)
  /-- OR Ra, Rb, format RR (R111). -/
  | or (a b : Byte)
  /-- XOR Ra, Rb, format RR (R112). -/
  | xor (a b : Byte)
  /-- SHL Ra, Rb, format RR (R117). -/
  | shl (a b : Byte)
  /-- SHR Ra, Rb, format RR (R119). -/
  | shr (a b : Byte)
  deriving DecidableEq, Repr

/-- The operation an instruction term performs. -/
def Instr.mnemonic : Instr → Mnemonic
  | .hlt => .HLT
  | .ret => .RET
  | .push _ => .PUSH
  | .pop _ => .POP
  | .prn _ => .PRN
  | .call _ => .CALL
  | .jmp _ => .JMP
  | .jeq _ => .JEQ
  | .jne _ => .JNE
  | .not _ => .NOT
  | .ldi _ _ => .LDI
  | .add _ _ => .ADD
  | .mul _ _ => .MUL
  | .mod _ _ => .MOD
  | .cmp _ _ => .CMP
  | .and _ _ => .AND
  | .or _ _ => .OR
  | .xor _ _ => .XOR
  | .shl _ _ => .SHL
  | .shr _ _ => .SHR

/-- The fetch window (R78): the bytes at `pc`, `pc + 1` and `pc + 2`. -/
structure Window where
  /-- The opcode byte. -/
  ir : Byte
  /-- The byte after it, the first operand where there is one. -/
  opA : Byte
  /-- The byte after that, the second operand where there is one. -/
  opB : Byte
  deriving DecidableEq, Repr

/-- The window's bytes in increasing address order (R50). -/
def Window.bytes (w : Window) : List Byte := [w.ir, w.opA, w.opB]

end Sys2Proof
end

