-- ==== Sys2Proof/Decode.lean ====
section
/-! DEFINITION. The default opcode map (R67) and the other defaults, the fields of an opcode byte (R62, R63), decode
(R69 to R73, R80) and the encoder, both under any map.  Decode matches the whole opcode byte and is total: a byte is a
known, an unnamed or an unknown opcode (R71). -/

namespace Sys2Proof

/-- The default of OPCODE_MAP (R67).  HLT, PRN and LDI are the source's; the other 17 values are the spec's choice from
general knowledge (D2; log entry 1). -/
def OPCODE_MAP : OpcodeMap where
  HLT := Config.OPCODE_HLT
  RET := 0x11
  PUSH := 0x45
  POP := 0x46
  PRN := Config.OPCODE_PRN
  CALL := 0x50
  JMP := 0x54
  JEQ := 0x55
  JNE := 0x56
  NOT := 0x69
  LDI := Config.OPCODE_LDI
  ADD := 0xA0
  MUL := 0xA2
  MOD := 0xA4
  CMP := 0xA7
  AND := 0xA8
  OR := 0xAA
  XOR := 0xAB
  SHL := 0xAC
  SHR := 0xAD

/-- The byte a map gives an operation. -/
def OpcodeMap.byte (om : OpcodeMap) : Mnemonic → Byte
  | .HLT => om.HLT
  | .RET => om.RET
  | .PUSH => om.PUSH
  | .POP => om.POP
  | .PRN => om.PRN
  | .CALL => om.CALL
  | .JMP => om.JMP
  | .JEQ => om.JEQ
  | .JNE => om.JNE
  | .NOT => om.NOT
  | .LDI => om.LDI
  | .ADD => om.ADD
  | .MUL => om.MUL
  | .MOD => om.MOD
  | .CMP => om.CMP
  | .AND => om.AND
  | .OR => om.OR
  | .XOR => om.XOR
  | .SHL => om.SHL
  | .SHR => om.SHR

/-- The defaults that D2, D3 and D12 give: the map of R67, no unnamed opcode, no check on the untaken path. -/
def Params.defaults : Params where
  opcodeMap := OPCODE_MAP
  unnamedOpcodes := []
  branchChecksUntaken := false

/-- `n(ir) = ir[7:6]`: the operand count (R62). -/
def operandCount (ir : Byte) : Nat := (ir.extractLsb' 6 2).toNat

/-- Bit 5 of an opcode byte, the "ALU/flag-setting marker bit" (R63).  Descriptive: decode does not read it. -/
def markerB (ir : Byte) : Bool := ir.getLsbD 5

/-- Bit 4 of an opcode byte, set where the instruction sets `pc` itself (R63).  Descriptive. -/
def markerC (ir : Byte) : Bool := ir.getLsbD 4

/-- Bits 3:0 of an opcode byte, the instruction identifier DDDD (R63).  Descriptive. -/
def identifier (ir : Byte) : BitVec 4 := ir.extractLsb' 0 4

/-- The length in bytes of a known instruction, `1 + n(ir)` for its opcode byte (R62, R72). -/
def Mnemonic.length (om : OpcodeMap) (m : Mnemonic) : Nat := 1 + operandCount (om.byte m)

/-- The operand bytes that an operation's format holds (R64): none in Z, one in R, two in RI and RR. -/
def Mnemonic.operands : Mnemonic → Nat
  | .HLT | .RET => 0
  | .PUSH | .POP | .PRN | .CALL | .JMP | .JEQ | .JNE | .NOT => 1
  | .LDI | .ADD | .MUL | .MOD | .CMP | .AND | .OR | .XOR | .SHL | .SHR => 2

/-- The maps that agree with the spec: no byte twice, the three bytes that the source gives (R67), and operand counts
that are those of the formats (R64).  NOT's length is the map's to say (D28, U21): one operand byte, or two of which
the second is ignored (R114).  Log entry 30. -/
abbrev OpcodeMap.wf (om : OpcodeMap) : Prop :=
  (Mnemonic.all.map om.byte).Nodup ∧ om.HLT = Config.OPCODE_HLT ∧ om.PRN = Config.OPCODE_PRN ∧
    om.LDI = Config.OPCODE_LDI ∧
    ∀ m ∈ Mnemonic.all, m.length om = 1 + m.operands ∨ m = .NOT ∧ m.length om = Config.MAX_INSN_LEN

/-- `is_alu` of the decode interface (R73): the ten operations `alu_8bit` performs (R81). -/
def Mnemonic.isAlu : Mnemonic → Bool
  | .ADD | .MUL | .CMP | .AND | .OR | .XOR | .NOT | .SHL | .SHR | .MOD => true
  | .HLT | .RET | .PUSH | .POP | .PRN | .CALL | .JMP | .JEQ | .JNE | .LDI => false

/-- `sets_pc` of the decode interface (R73): the five operations exempt from the normal advance (R85). -/
def Mnemonic.setsPc : Mnemonic → Bool
  | .CALL | .RET | .JMP | .JEQ | .JNE => true
  | .HLT | .PUSH | .POP | .PRN | .NOT | .LDI | .ADD | .MUL | .MOD | .CMP | .AND | .OR | .XOR | .SHL | .SHR => false

/-- The known operation an opcode byte selects, comparing the whole byte (R67, R80). -/
def knownOp (om : OpcodeMap) (ir : Byte) : Option Mnemonic := Mnemonic.all.find? fun m => om.byte m == ir

/-- What an opcode byte selects (R71, R73). -/
inductive Op where
  /-- One of the 20 mnemonics (R67). -/
  | known (m : Mnemonic)
  /-- A byte of UNNAMED_OPCODES: the model gives it no meaning (R70). -/
  | unnamed
  /-- Any other byte (R69). -/
  | unknown
  deriving DecidableEq, Repr

/-- `decode(ir)` (R80): a mnemonic, or UNNAMED, or UNKNOWN otherwise.  It reads no operand byte. -/
def decodeOp (p : Params) (ir : Byte) : Op :=
  match knownOp p.opcodeMap ir with
  | some m => .known m
  | none => if ir ∈ p.unnamedOpcodes then .unnamed else .unknown

/-- `len` of the decode interface (R73): `1 + n` for a known operation, 1 for UNKNOWN whatever the top bits
(C1); none for UNNAMED, whose length no source gives. -/
def Op.len (ir : Byte) : Op → Option Nat
  | .known _ => some (1 + operandCount ir)
  | .unknown => some 1
  | .unnamed => none

/-- The instruction term of an operation and the two bytes after its opcode (R64).  A byte the format does
not use is ignored (R66). -/
def assemble (m : Mnemonic) (opA opB : Byte) : Instr :=
  match m with
  | .HLT => .hlt
  | .RET => .ret
  | .PUSH => .push opA
  | .POP => .pop opA
  | .PRN => .prn opA
  | .CALL => .call opA
  | .JMP => .jmp opA
  | .JEQ => .jeq opA
  | .JNE => .jne opA
  | .NOT => .not opA
  | .LDI => .ldi opA opB
  | .ADD => .add opA opB
  | .MUL => .mul opA opB
  | .MOD => .mod opA opB
  | .CMP => .cmp opA opB
  | .AND => .and opA opB
  | .OR => .or opA opB
  | .XOR => .xor opA opB
  | .SHL => .shl opA opB
  | .SHR => .shr opA opB

/-- The outcome of decoding a fetch window; the two rejections carry the opcode byte. -/
inductive Decoded where
  | known (i : Instr)
  /-- Rejected: the byte is in UNNAMED_OPCODES (R70). -/
  | unnamed (ir : Byte)
  /-- Rejected: the byte is in no table (R69); the machine records a diagnostic and skips it. -/
  | unknown (ir : Byte)
  deriving DecidableEq, Repr

/-- Decode of a fetch window (R64, R66, R80), total on any three bytes. -/
def decode (p : Params) (w : Window) : Decoded :=
  match decodeOp p w.ir with
  | .known m => .known (assemble m w.opA w.opB)
  | .unnamed => .unnamed w.ir
  | .unknown => .unknown w.ir

/-- The operand bytes of an instruction, in address order (R64). -/
def Instr.operandBytes : Instr → List Byte
  | .hlt => []
  | .ret => []
  | .push a => [a]
  | .pop a => [a]
  | .prn a => [a]
  | .call a => [a]
  | .jmp a => [a]
  | .jeq a => [a]
  | .jne a => [a]
  | .not a => [a]
  | .ldi a imm => [a, imm]
  | .add a b => [a, b]
  | .mul a b => [a, b]
  | .mod a b => [a, b]
  | .cmp a b => [a, b]
  | .and a b => [a, b]
  | .or a b => [a, b]
  | .xor a b => [a, b]
  | .shl a b => [a, b]
  | .shr a b => [a, b]

/-- The bytes of an instruction in increasing address order (R61, R64, R67): the map's opcode byte, the operands, and a
byte `0` for each further byte that the opcode counts, which only NOT can have and which it ignores (R114; log entry
30). -/
def encode (om : OpcodeMap) (i : Instr) : List Byte :=
  om.byte i.mnemonic ::
    (i.operandBytes ++ List.replicate (operandCount (om.byte i.mnemonic) - i.operandBytes.length) 0)

/-- The first three bytes of a byte sequence, missing ones taken as `0`. -/
def Window.ofBytes (bs : List Byte) : Window where
  ir := bs.getD 0 0
  opA := bs.getD 1 0
  opB := bs.getD 2 0

/-- The parameters as the spec describes them: a map that agrees with it, and UNNAMED_OPCODES as many as the document
counts and does not name, none of them in the map (D3). -/
abbrev Params.wf (p : Params) : Prop :=
  p.opcodeMap.wf ∧ p.unnamedOpcodes.length ≤ Config.OPCODE_COUNT - Config.NAMED_OPCODE_COUNT ∧
    ∀ b ∈ p.unnamedOpcodes, knownOp p.opcodeMap b = none

/-- A number's low `nbits` bits as the window they fill, the first byte lowest (the opcode table's
numbering; CORE's instruction bytes stand in increasing address order, R50). -/
def wordWindow (nbits w : Nat) : Window :=
  Window.ofBytes ((List.range Config.MAX_INSN_LEN).map fun k =>
    BitVec.ofNat Config.XLEN (w % 2 ^ nbits / 2 ^ (Config.XLEN * k)))

/-- The instruction the decoder reads from a word of the opcode table (the host's reading of the table). -/
def decodeTableWord (nbits w : Nat) : Option Instr :=
  match decode Params.defaults (wordWindow nbits w) with
  | .known i => some i
  | .unnamed _ => none
  | .unknown _ => none

end Sys2Proof
end

