-- ==== Sys2Proof/Machine/State.lean ====
section
/-! DEFINITION. The architectural state of CORE (R20), plain data, with the reasons a step can stop and the
state after reset (R44). -/

namespace Sys2Proof.Machine

/-- `fetch_decode_unit`'s latches (R42): the opcode byte and the two operand bytes, where they were read.
Transient: all empty between instructions (R44, "none (transient)"). -/
structure Latch where
  ir : Option Byte
  opA : Option Byte
  opB : Option Byte
  deriving DecidableEq, Repr

/-- The latches once the given bytes have been read, in order. -/
def Latch.ofBytes (bs : List Byte) : Latch := { ir := bs[0]?, opA := bs[1]?, opB := bs[2]? }

/-- The latches between instructions: nothing latched. -/
def Latch.empty : Latch := Latch.ofBytes []

/-- What is recorded with an abort (R163): `pc`, and `ir`, `opA`, `opB` where they were read. -/
structure AbortContext where
  pc : Nat
  latch : Latch
  deriving DecidableEq, Repr

/-- The aborts of class (c) (R158): each is a fault (R160), and the state after it is kept nowhere, because no
claim may read it (R166).  Stopping is SAFE: the spec ends the run there. -/
inductive Fault where
  /-- Raised by `MemRead` and `MemWrite` at an address outside 0..255 (R47, R48, R161): in CORE by the fetch of
  an instruction at `pc >= 254` (R79).  Safe. -/
  | outOfBounds (addr : Nat) (ctx : AbortContext)
  /-- Raised by a register read or write with an index outside 0..7 (R27, R28, R162).  Safe. -/
  | invalidRegister (index : Byte) (ctx : AbortContext)
  /-- Raised by the dispatcher when `alu_8bit` is given an operation it does not perform (R100, R165).  No
  instruction raises it: the arm is unreachable (D22).  Safe. -/
  | unsupportedOperation (ctx : AbortContext)
  deriving DecidableEq, Repr

/-- Where the model gives no meaning.  A refusal is neither a halt nor an abort (R179); it ends the model's run,
which is the refusal mark R179 keeps.  Each is SAFE: nothing can be proved of a run that is refused. -/
inductive Refusal where
  /-- An instruction whose arm of `exec` has no meaning yet (the host's name).  Safe. -/
  | notModelled (mnemonic : String)
  /-- The opcode byte at `pc` is in UNNAMED_OPCODES (R70, R84).  Raised by the machine cycle.  Safe. -/
  | unnamedOpcode (ir : Byte) (pc : Nat)
  /-- The image, placed from IMAGE_BASE, would run past memory (more than 256 bytes, R7), and is refused at load, before
  the run (R182).  Raised by boot.  Safe. -/
  | imageTooLong (length : Nat)
  deriving DecidableEq, Repr

/-- Why a machine is halted (R37). -/
inductive HaltReason where
  /-- The HLT instruction (R155), the only normal end (R92). -/
  | hlt
  /-- MOD with a zero divisor (R122), "a fatal halt, not a resumable fault". -/
  | modZero
  deriving DecidableEq, Repr

/-- The run state (R37). -/
inductive Run where
  | running
  | halted (r : HaltReason)
  /-- `ABORTED(E, info)`.  The step that aborts answers a fault (R160), so no next state holds it. -/
  | aborted (f : Fault)
  deriving DecidableEq, Repr

/-- A record of the diagnostic trace (R172): the condition, the opcode byte and the address. -/
inductive Diag where
  | unknownOpcode (ir : Byte) (pc : Nat)
  | modByZero (ir : Byte) (pc : Nat)
  deriving DecidableEq, Repr

/-- Memory `mem[0..255]` (R46): the cells that differ from `Memory.unlisted`, by rising address. -/
abbrev Memory := List (Nat × Byte)

/-- The state of CORE: the tuple of R20, the fetch latches of R42, the launch parameters of R8 and the model's
own draw counter. -/
structure State where
  /-- `register_file`: R0 to R7, R7 being SP (R21, R22). -/
  regs : Vector Byte Config.NREG
  /-- `program_counter`: a natural number, never reduced (R31). -/
  pc : Nat
  /-- `flags_register`, the byte FL (R33). -/
  fl : Byte
  /-- The 256-byte memory (R46). -/
  mem : Memory
  /-- The run state (R37). -/
  run : Run
  /-- The output trace `out`, oldest first (R39). -/
  out : List Byte
  /-- The diagnostic trace `dg`, oldest first (R39, R172). -/
  dg : List Diag
  /-- The fetch latches (R42). -/
  latch : Latch
  /-- The launch parameters (R8); no step changes them (log entry 5). -/
  params : Params
  /-- The MODEL'S OWN field: how many free values have been drawn (log entry 6). -/
  draws : Nat
  deriving DecidableEq, Repr

/-- The machine right after reset (R44, R180), with nothing loaded: R7 = 0xF4 is the document's, `pc` = 0 the
spec's decision (D4).  R0..R6, FL and memory are launch parameters any value of which is possible (D5, D6);
here they are zero (log entries 2 and 3).  `boot` gives the state for every launch. -/
def State.reset : State where
  regs := (Vector.replicate Config.NREG 0).set Config.SP_INDEX Config.SP_RESET
  pc := Config.PC_RESET
  fl := 0
  mem := []
  run := .running
  out := []
  dg := []
  latch := Latch.empty
  params := Params.defaults
  draws := 0

/-- What a step or a meaning answers. -/
abbrev Result := Host.Outcome State Fault Refusal

end Sys2Proof.Machine
end

