-- ==== Sys2Proof/Machine/Ops.lean ====
section
/-! DEFINITION. The pseudocode primitives of R11, each with exactly that meaning: registers, memory, traces,
halt and the program-counter commands.  An abort (R158 class (c)) is raised here and nowhere else; CORE has no
trap entry and no trap return (R169), so there is none to model. -/

namespace Sys2Proof.Machine

/-! ### Memory as data -/

/-- What a cell that is not listed reads as: the reset value of INIT_MEM the model names (log entry 3). -/
def Memory.unlisted : Byte := 0

/-- The byte at an address. -/
def Memory.read : Memory → Nat → Byte
  | [], _ => Memory.unlisted
  | c :: m, a => if c.1 = a then c.2 else Memory.read m a

/-- Memory with no entry at an address. -/
def Memory.without (m : Memory) (a : Nat) : Memory := m.filter fun c => c.1 != a

/-- Memory with an entry put before the first higher address. -/
def Memory.put : Memory → Nat → Byte → Memory
  | [], a, v => [(a, v)]
  | c :: m, a, v => if a < c.1 then (a, v) :: c :: m else c :: Memory.put m a v

/-- Memory after a byte is stored: a byte that equals `Memory.unlisted` leaves no entry. -/
def Memory.write (m : Memory) (a : Nat) (v : Byte) : Memory :=
  if v = Memory.unlisted then Memory.without m a else Memory.put (Memory.without m a) a v

/-- Bytes stored at consecutive addresses from `a`. -/
def Memory.writeList (m : Memory) (a : Nat) : List Byte → Memory
  | [] => m
  | v :: vs => Memory.writeList (Memory.write m a v) (a + 1) vs

/-- The canonical form: addresses strictly rising and in 0..255, and no entry that reads as `unlisted`. -/
abbrev Memory.wf (m : Memory) : Prop :=
  m.Pairwise (fun c d => c.1 < d.1) ∧ ∀ c ∈ m, c.1 < Config.MEM_SIZE ∧ c.2 ≠ Memory.unlisted

/-! ### Raising -/

/-- The context recorded with an abort (R163). -/
def State.context (s : State) : AbortContext := { pc := s.pc, latch := s.latch }

/-- The outcome of an instruction's statements: a `raise` ends it at once with the error (R11, R88). -/
def finish : Except Fault State → Result
  | .ok s => .next s
  | .error f => .fault f

/-! ### Memory and register access -/

/-- `MemRead(a, 1)` (R47). -/
def memRead (s : State) (a : Nat) : Except Fault Byte :=
  if a < Config.MEM_SIZE then .ok (Memory.read s.mem a) else .error (.outOfBounds a s.context)

/-- The state with one byte of memory stored. -/
def State.setByte (s : State) (a : Nat) (v : Byte) : State := { s with mem := Memory.write s.mem a v }

/-- `MemWrite(a, 1, v)` (R48). -/
def memWrite (s : State) (a : Nat) (v : Byte) : Except Fault State :=
  if a < Config.MEM_SIZE then .ok (s.setByte a v)
  else .error (.outOfBounds a s.context)

/-- The value of the register an index byte names, if it names one (R27). -/
def State.reg? (s : State) (i : Byte) : Option Byte := s.regs[i.toNat]?

/-- `x[i]` (R27). -/
def readReg (s : State) (i : Byte) : Except Fault Byte :=
  match s.reg? i with
  | some v => .ok v
  | none => .error (.invalidRegister i s.context)

/-- The state with the register an index byte names written, if it names one (R28). -/
def State.setReg (s : State) (i v : Byte) : State := { s with regs := s.regs.setIfInBounds i.toNat v }

/-- `x[i] <- v` (R28): a Byte is already reduced mod 256. -/
def writeReg (s : State) (i v : Byte) : Except Fault State :=
  if i.toNat < Config.NREG then .ok (s.setReg i v)
  else .error (.invalidRegister i s.context)

/-- `x[7]` (R22): never raises. -/
def State.sp (s : State) : Byte := s.regs[Config.SP_INDEX]

/-- `x[7] <- v` (R24): never raises. -/
def State.setSp (s : State) (v : Byte) : State := { s with regs := s.regs.set Config.SP_INDEX v }

/-! ### Traces and halting -/

/-- `emit(v)` (R11, R39). -/
def emit (v : Byte) (s : State) : State := { s with out := s.out ++ [v] }

/-- `diag(d)` (R11, R172). -/
def diag (d : Diag) (s : State) : State := { s with dg := s.dg ++ [d] }

/-- `halt(r)` (R11, R37). -/
def halt (r : HaltReason) (s : State) : State := { s with run := .halted r }

/-! ### Program counter -/

/-- `advance(len)` (R32, R85) for an operation, by its opcode byte in the map: `pc <- pc + 1 + n(ir)`. -/
def advance (m : Mnemonic) (s : State) : State := { s with pc := s.pc + m.length s.params.opcodeMap }

/-- `load(t)` (R32, R139): an absolute target, a byte, neither offset nor masked. -/
def loadPc (t : Byte) (s : State) : State := { s with pc := t.toNat }

/-- `MODZERO_PC(p)` (R87, D11): a draw in `{p, p + 3}`. -/
def modZeroPc (s : State) : Nat :=
  if Config.modZeroAdvances s.draws s.pc then s.pc + Config.MODZERO_ADVANCE else s.pc

/-- The zero-divisor halt of MOD (R87, R122): the diagnostic, the halt, the drawn `pc`, nothing else. -/
def haltModZero (s : State) : State :=
  let s' := halt .modZero (diag (.modByZero (s.params.opcodeMap.byte .MOD) s.pc) s)
  { s' with pc := modZeroPc s, draws := s.draws + 1 }

end Sys2Proof.Machine
end

