-- ==== Sys2Proof/Machine/Flags.lean ====
section
/-! DEFINITION. The flags register: its bits (R33), the compare function (R106), FL's one writer (R34) and
the condition JEQ and JNE read (R35, R151). -/

namespace Sys2Proof.Machine

/-- Bit E, equal (R33). -/
def flagE (fl : Byte) : Bool := fl.getLsbD Config.FL_EQ_BIT

/-- Bit G, greater-than (R33).  No instruction reads it (R35). -/
def flagG (fl : Byte) : Bool := fl.getLsbD Config.FL_GT_BIT

/-- Bit L, less-than (R33).  No instruction reads it (R35). -/
def flagL (fl : Byte) : Bool := fl.getLsbD Config.FL_LT_BIT

/-- `cmp(A, B)` (R106): unsigned (R108), exactly one of the three values. -/
def cmpFlags (A B : Byte) : Byte :=
  if A = B then Config.FL_EQ
  else if A.toNat > B.toNat then Config.FL_GT
  else Config.FL_LT

/-- `FL <- v`: the whole byte (R34). -/
def writeFl (v : Byte) (s : State) : State := { s with fl := v }

end Sys2Proof.Machine
end

