-- ==== Sys2Proof/Machine/Alu.lean ====
section
/-! DEFINITION. `alu_8bit`: a pure function with no state (R93), by the table of R101. -/

namespace Sys2Proof.Machine

/-- The outputs of `alu_8bit` (R93).  A write enable and its data are one Option. -/
structure AluOut where
  /-- `res` where `res_we = 1`. -/
  res : Option Byte
  /-- `fl_d` where `fl_we = 1`. -/
  fl : Option Byte
  /-- `div_zero`. -/
  divZero : Bool
  deriving DecidableEq, Repr

/-- An output that writes only register A, with an exact result reduced mod 256 (R96). -/
def AluOut.result (v : Nat) : AluOut := { res := some (BitVec.ofNat Config.XLEN v), fl := none, divZero := false }

/-- An output that writes only FL (R95, CMP). -/
def AluOut.flags (v : Byte) : AluOut := { res := none, fl := some v, divZero := false }

/-- The output of MOD with `B = 0`: no write, `div_zero` set (R101). -/
def AluOut.zeroDivisor : AluOut := { res := none, fl := none, divZero := true }

/-- The ALU function (R101): each result is computed exactly and reduced mod 256.  The shift amount is the whole
byte, not reduced (R116).  For NOT, `B` is ignored (R114).  `none` is the document's UnsupportedOperationError for
an operation that is not an ALU one (R100). -/
def alu (op : Mnemonic) (A B : Byte) : Option AluOut :=
  match op with
  | .ADD => some (.result (A.toNat + B.toNat))
  | .MUL => some (.result (A.toNat * B.toNat))
  | .CMP => some (.flags (cmpFlags A B))
  | .AND => some (.result (A &&& B).toNat)
  | .OR => some (.result (A ||| B).toNat)
  | .XOR => some (.result (A ^^^ B).toNat)
  | .NOT => some (.result (2 ^ Config.XLEN - 1 - A.toNat))
  | .SHL => some (.result (A.toNat * 2 ^ B.toNat))
  | .SHR => some (.result (A.toNat / 2 ^ B.toNat))
  | .MOD => some (if B = 0 then .zeroDivisor else .result (A.toNat % B.toNat))
  | .HLT | .RET | .PUSH | .POP | .PRN | .CALL | .JMP | .JEQ | .JNE | .LDI => none

/-- The write of register A, where `res_we` is set (R95). -/
def writeResult (a : Byte) (res : Option Byte) (s : State) : Except Fault State :=
  match res with
  | some v => writeReg s a v
  | none => .ok s

/-- The write of FL, where `fl_we` is set (R34, R95). -/
def writeFlags (fl : Option Byte) (s : State) : State :=
  match fl with
  | some v => writeFl v s
  | none => s

/-- What the dispatcher does with the outputs (R81, R95, R122): halt on a zero divisor, or else write register `a`
or FL and advance. -/
def commitAlu (op : Mnemonic) (a : Byte) (o : AluOut) (s : State) : Except Fault State :=
  if o.divZero then .ok (haltModZero s)
  else do
    let s1 ← writeResult a o.res s
    return advance op (writeFlags o.fl s1)

/-- Give `alu_8bit` an operation and its values and commit the outputs (R81); an operation it does not perform
is UnsupportedOperation (R100). -/
def runAlu (op : Mnemonic) (a A B : Byte) (s : State) : Except Fault State :=
  match alu op A B with
  | some o => commitAlu op a o s
  | none => .error (.unsupportedOperation s.context)

end Sys2Proof.Machine
end

