-- ==== Sys2Proof/Machine/Operands.lean ====
section
/-! DEFINITION. The operand forms: a register, a register pair, an immediate (R64, R65) and the one data
addressing mode, stack-relative through R7 (R138). -/

namespace Sys2Proof.Machine

/-- Register A, then register B, both index-checked, before anything is computed (R94). -/
def readPair (s : State) (a b : Byte) : Except Fault (Byte × Byte) := do
  let A ← readReg s a
  let B ← readReg s b
  return (A, B)

/-- LDI's immediate: the whole byte, as it is (R65). -/
def immediate (imm : Byte) : Byte := imm

/-- The cell PUSH and CALL write: R7 after the decrement, which wraps mod 256 (R131, R133, R138). -/
def pushAddr (s : State) : Nat := (s.sp - 1).toNat

/-- The cell POP and RET read: R7 before the increment (R135, R138). -/
def popAddr (s : State) : Nat := s.sp.toNat

/-- `x[7] <- (x[7] - 1) mod 256` (R131, R141). -/
def decSp (s : State) : State := s.setSp (s.sp - 1)

/-- `x[7] <- (x[7] + 1) mod 256` (R135, R145). -/
def incSp (s : State) : State := s.setSp (s.sp + 1)

end Sys2Proof.Machine
end

