-- ==== Sys2Proof/Machine/AluInstructions.lean ====
section
/-! DEFINITION. The ten ALU instructions (file 41_alu.md): read the operand registers, run `alu_8bit`, write
back (R81, R94, R95). -/

namespace Sys2Proof.Machine

/-- The shape of the nine two-operand ALU instructions (R94). -/
def binaryAlu (op : Mnemonic) (a b : Byte) (s : State) : Result := finish do
  let (A, B) ← readPair s a b
  runAlu op a A B s

/-- The shape of the unary ALU instruction, which reads register A only (R94, R114). -/
def unaryAlu (op : Mnemonic) (a : Byte) (s : State) : Result := finish do
  let A ← readReg s a
  runAlu op a A 0 s

/-- ADD (R103). -/
def execAdd (a b : Byte) (s : State) : Result := binaryAlu .ADD a b s

/-- MUL (R105). -/
def execMul (a b : Byte) (s : State) : Result := binaryAlu .MUL a b s

/-- CMP (R107). -/
def execCmp (a b : Byte) (s : State) : Result := binaryAlu .CMP a b s

/-- AND (R110). -/
def execAnd (a b : Byte) (s : State) : Result := binaryAlu .AND a b s

/-- OR (R111). -/
def execOr (a b : Byte) (s : State) : Result := binaryAlu .OR a b s

/-- XOR (R112). -/
def execXor (a b : Byte) (s : State) : Result := binaryAlu .XOR a b s

/-- NOT (R115). -/
def execNot (a : Byte) (s : State) : Result := unaryAlu .NOT a s

/-- SHL (R117). -/
def execShl (a b : Byte) (s : State) : Result := binaryAlu .SHL a b s

/-- SHR (R119). -/
def execShr (a b : Byte) (s : State) : Result := binaryAlu .SHR a b s

/-- MOD (R121); a zero divisor halts the machine (R122). -/
def execMod (a b : Byte) (s : State) : Result := binaryAlu .MOD a b s

end Sys2Proof.Machine
end

