-- ==== Sys2Proof/Machine/Control.lean ====
section
/-! DEFINITION. CALL, RET, JMP, JEQ, JNE and HLT (file 43_control_flow.md). -/

namespace Sys2Proof.Machine

/-- CALL (R141): the return address `p + 2` is pushed, then register `a` is read (R143).  `p + 2` fits a byte for
every CALL that a fetch can reach (R142). -/
def execCall (a : Byte) (s : State) : Result := finish do
  let s1 := decSp s
  let s2 ← memWrite s1 s1.sp.toNat (BitVec.ofNat Config.XLEN (s.pc + Config.CALL_LENGTH))
  let t ← readReg s2 a
  return loadPc t s2

/-- RET (R145). -/
def execRet (s : State) : Result := finish do
  let t ← memRead s (popAddr s)
  return loadPc t (incSp s)

/-- JMP (R148). -/
def execJmp (a : Byte) (s : State) : Result := finish do
  let t ← readReg s a
  return loadPc t s

/-- The shape of JEQ and JNE: taken, `pc` is loaded from register `a`; not taken, `pc` advances by the branch's own
length (R85), and register `a` is index-checked only if BRANCH_CHECKS_UNTAKEN (R153). -/
def branch (op : Mnemonic) (taken : Bool) (a : Byte) (s : State) : Except Fault State :=
  if taken then do
    let t ← readReg s a
    return loadPc t s
  else if s.params.branchChecksUntaken then do
    let _ ← readReg s a
    return advance op s
  else return advance op s

/-- JEQ (R150): taken when bit E is set; no other bit of FL is read (R151). -/
def execJeq (a : Byte) (s : State) : Result := finish (branch .JEQ (flagE s.fl) a s)

/-- JNE (R152): taken when bit E is clear; no other bit of FL is read (R151). -/
def execJne (a : Byte) (s : State) : Result := finish (branch .JNE (!flagE s.fl) a s)

/-- HLT (R155): halts, and `pc` advances by 1 in the same step (R86, D10). -/
def execHlt (s : State) : Result := .next (advance .HLT (halt .hlt s))

end Sys2Proof.Machine
end

