-- ==== Sys2Proof/Machine/RegisterStack.lean ====
section
/-! DEFINITION. LDI, PRN, PUSH and POP (file 42_register_stack.md).  The statements stand in the order of each
rule's pseudocode, so a later one sees the effects of an earlier one (R11, D13). -/

namespace Sys2Proof.Machine

/-- LDI (R126). -/
def execLdi (a imm : Byte) (s : State) : Result := finish do
  let s1 ← writeReg s a (immediate imm)
  return advance .LDI s1

/-- PRN (R129). -/
def execPrn (a : Byte) (s : State) : Result := finish do
  let v ← readReg s a
  return advance .PRN (emit v s)

/-- PUSH (R131): R7 is decremented before register `a` is read, so PUSH R7 stores the decremented SP (R132). -/
def execPush (a : Byte) (s : State) : Result := finish do
  let s1 := decSp s
  let v ← readReg s1 a
  let s2 ← memWrite s1 s1.sp.toNat v
  return advance .PUSH s2

/-- POP (R135): register `a` is written before R7 is incremented, so POP R7 writes R7 twice (R136). -/
def execPop (a : Byte) (s : State) : Result := finish do
  let v ← memRead s (popAddr s)
  let s1 ← writeReg s a v
  return advance .POP (incSp s1)

end Sys2Proof.Machine
end

