-- ==== Sys2Proof/Machine/Cycle.lean ====
section
/-! DEFINITION. The cycle every instruction goes through (R77): fetch, decode, dispatch, and the skip of an
unknown opcode.  Also the placing of one instruction where the next fetch reads it. -/

namespace Sys2Proof.Machine

/-- The reads of a fetch that are still to do, each range-checked and latched as it is read (R42, R79), so an abort
records the bytes read before it (R163). -/
def readWindow : Nat → List Byte → State → Except Fault (List Byte × State)
  | 0, bs, s => .ok (bs, s)
  | n + 1, bs, s => do
    let v ← memRead s (s.pc + bs.length)
    readWindow n (bs ++ [v]) { s with latch := Latch.ofBytes (bs ++ [v]) }

/-- Fetch (R78): FETCH_WINDOW reads from `pc` on, in order. -/
def fetch (s : State) : Except Fault (Window × State) := do
  let (bs, s1) ← readWindow Config.FETCH_WINDOW [] { s with latch := Latch.empty }
  return (Window.ofBytes bs, s1)

/-- The latches hold nothing once the instruction is complete (R42, R44). -/
def retire (s : State) : State := { s with latch := Latch.empty }

/-- The end of an instruction's step. -/
def retireResult : Result → Result
  | .next s => .next (retire s)
  | .fault f => .fault f
  | .refused r => .refused r

/-- An unknown opcode (R83): the diagnostic, and `pc` moves one byte whatever the top bits say (C1). -/
def skipUnknown (ir : Byte) (s : State) : State :=
  let s' := diag (.unknownOpcode ir s.pc) s
  { s' with pc := s.pc + 1 }

/-- What follows decode (R77). -/
def dispatch (d : Decoded) (s : State) : Result :=
  match d with
  | .known i => exec i s
  | .unknown ir => .next (skipUnknown ir s)
  | .unnamed ir => .refused (.unnamedOpcode ir s.pc)

/-- One step of a RUNNING machine (R77). -/
def runCycle (s : State) : Result :=
  match fetch s with
  | .error f => .fault f
  | .ok (w, s1) => retireResult (dispatch (decode s.params w) s1)

/-- A step (R76).  A machine whose run state is not RUNNING takes no further step (R38): nothing changes
(log entry 7). -/
def cycle (s : State) : Result :=
  match s.run with
  | .running => runCycle s
  | .halted _ => .next s
  | .aborted _ => .next s

/-- The last address an instruction can be fetched from (R79, R191). -/
def lastFetch : Nat := Config.MEM_SIZE - Config.FETCH_WINDOW

/-- A state that fetches the three given bytes at its next step: they stand at `pc`, the machine runs, and a `pc` no
fetch can start from (R79) is set to the last one that a fetch can, so the bytes always fit. -/
def placeWindow (s : State) (w : Window) : State :=
  let p := min s.pc lastFetch
  { s with run := .running, pc := p, mem := Memory.writeList s.mem p w.bytes }

end Sys2Proof.Machine
end

