-- ==== Sys2Proof/Machine/Step.lean ====
section
/-! DEFINITION. One step of CORE, and the placing of a word of the opcode table for the next step. -/

namespace Sys2Proof.Machine

/-- One atomic step: one instruction, completely (R6, R76, R77). -/
def step (s : State) : Host.Outcome State Fault Refusal := cycle s

/-- `s` with a word of the opcode table where the next step fetches it. -/
def State.withFetchWord (s : State) (nbits w : Nat) : State := placeWindow s (wordWindow nbits w)

end Sys2Proof.Machine
end

