-- ==== Sys2Proof/Machine/Boot.lean ====
section
/-! DEFINITION. Boot (R180 to R182): the image placed from IMAGE_BASE over INIT_MEM, and every other piece of
state at its reset value, for every choice of the launch parameters. -/

namespace Sys2Proof.Machine

/-- What a run is launched with: the image, the contents R44 leaves unspecified, and the parameters of R8. -/
structure Launch where
  /-- INIT_X (D5): the general registers but SP, in order. -/
  initX : Vector Byte (Config.NREG - 1)
  /-- INIT_FL (D5). -/
  initFl : Byte
  /-- INIT_MEM (D6), in the canonical form. -/
  initMem : Memory
  /-- The image (R182). -/
  image : List Byte
  params : Params
  deriving DecidableEq, Repr

/-- The registers at reset (R44): SP_RESET in register SP_INDEX, INIT_X in the others. -/
def initialRegs (initX : Vector Byte (Config.NREG - 1)) : Vector Byte Config.NREG :=
  ⟨(initX.toList.insertIdx Config.SP_INDEX Config.SP_RESET).toArray, by simp [List.length_insertIdx]⟩

/-- The state a launch starts from (R44, R180). -/
def Launch.state (l : Launch) : State :=
  { State.reset with
    regs := initialRegs l.initX
    fl := l.initFl
    mem := Memory.writeList l.initMem Config.IMAGE_BASE l.image
    params := l.params }

/-- The image fits: placed from IMAGE_BASE, its last byte is still in memory (R182).  With R7's IMAGE_BASE that is a
length of 0 to 256. -/
abbrev Launch.imageFits (l : Launch) : Prop := Config.IMAGE_BASE + l.image.length ≤ Config.MEM_SIZE

/-- Boot (R181): an image that does not fit is refused before the run (R182, D7). -/
def boot (l : Launch) : Result :=
  if l.imageFits then .next l.state else .refused (.imageTooLong l.image.length)

/-- The launch of log entries 2 and 3: no image, every unspecified value zero, the default parameters. -/
def Launch.bare : Launch where
  initX := Vector.replicate (Config.NREG - 1) 0
  initFl := 0
  initMem := []
  image := []
  params := Params.defaults

end Sys2Proof.Machine
end

