-- ==== Sys2Proof/Safety.lean ====
section
/-! DEFINITION. What counts as a safe run, in the terms the claims use: the end of a run (R91, R92), the status
codes (R163), the machine's invariant, what each instruction reads and writes by the spec's own lists, and the
parts of a state an instruction leaves unchanged. -/

namespace Sys2Proof.Machine

/-- The run state after a step's outcome (R37): the one the next state holds, or ABORTED with the fault.  A
refusal is neither (R179). -/
def runAfter : Result → Option Run
  | .next s => some s.run
  | .fault f => some (.aborted f)
  | .refused _ => none

/-- The status code of a run state (R163, the spec's own numbering, D14). -/
def Run.code : Run → Nat
  | .running => 0
  | .halted .hlt => 1
  | .halted .modZero => 2
  | .aborted (.outOfBounds _ _) => 3
  | .aborted (.invalidRegister _ _) => 4
  | .aborted (.unsupportedOperation _) => 5

/-- Only `HALTED(HLT)` is a normal end (R92). -/
def Run.isNormalEnd : Run → Bool
  | .halted .hlt => true
  | .running | .halted .modZero | .aborted _ => false

/-- The invariant of every reachable state: memory in canonical form, `pc` in 0..256 (R31), nothing latched
between instructions (R42), no abort kept as a state (R160), and launch parameters as the spec describes them (R8). -/
structure Inv (s : State) : Prop where
  mem : Memory.wf s.mem
  pc : s.pc ≤ Config.MEM_SIZE
  latch : s.latch = Latch.empty
  notAborted : ∀ f, s.run ≠ .aborted f
  params : Params.wf s.params

/-- Every register but those named holds what it held. -/
def SameRegsExcept (ds : List Byte) (s t : State) : Prop := ∀ r, r ∉ ds → t.reg? r = s.reg? r

/-- Every byte of memory but those at the named addresses reads as before. -/
def SameMemExcept (addrs : List Nat) (s t : State) : Prop :=
  ∀ a, a ∉ addrs → Memory.read t.mem a = Memory.read s.mem a

/-- Both traces are unchanged (R39). -/
def SameTraces (s t : State) : Prop := t.out = s.out ∧ t.dg = s.dg

/-- The run state, the fetch latches, the launch parameters and the draw counter are unchanged. -/
def SameControl (s t : State) : Prop :=
  t.run = s.run ∧ t.latch = s.latch ∧ t.params = s.params ∧ t.draws = s.draws

/-- Everything but FL, `pc` and the named registers and cells is unchanged. -/
def FrameExceptFl (ds : List Byte) (addrs : List Nat) (s t : State) : Prop :=
  SameRegsExcept ds s t ∧ SameMemExcept addrs s t ∧ SameTraces s t ∧ SameControl s t

/-- Everything but `pc` and the named registers and cells is unchanged; FL too. -/
def Frame (ds : List Byte) (addrs : List Nat) (s t : State) : Prop :=
  t.fl = s.fl ∧ FrameExceptFl ds addrs s t

/-- What `pc` advances by where an operation does not set it: `1 + n(ir)` for its opcode byte (R85). -/
@[simp] abbrev advanceOf (m : Mnemonic) (s : State) : Nat := m.length s.params.opcodeMap

/-- `exec i s` answers a next state in which register `r` holds `v`, `pc` has advanced by `1 + n(ir)`, and nothing else
has changed. -/
def WritesOneReg (i : Instr) (s : State) (r v : Byte) : Prop :=
  ∃ t, exec i s = .next t ∧ t.reg? r = some v ∧ t.pc = s.pc + advanceOf i.mnemonic s ∧ Frame [r] [] s t

/-- `exec i s` ends with InvalidRegister for index `r`, in the context of `s` (R162, R163). -/
def RejectsReg (i : Instr) (s : State) (r : Byte) : Prop :=
  exec i s = .fault (.invalidRegister r s.context)

/-- The three bytes a fetch reads (R78). -/
def windowAt (s : State) : Window where
  ir := Memory.read s.mem s.pc
  opA := Memory.read s.mem (s.pc + 1)
  opB := Memory.read s.mem (s.pc + 2)

/-- What the fetched bytes decode to (R80). -/
def fetchedOp (s : State) : Decoded := decode s.params (windowAt s)

/-- A state with its fetch window latched (R42). -/
def latched (s : State) : State :=
  { s with latch := { ir := some (windowAt s).ir, opA := some (windowAt s).opA, opB := some (windowAt s).opB } }

/-- The writers of registers, by the list of R25. -/
def writtenRegs : Instr → List Byte
  | .ldi a _ => [a]
  | .add a _ | .mul a _ | .mod a _ | .and a _ | .or a _ | .xor a _ | .shl a _ | .shr a _ | .not a => [a]
  | .pop a => [a, Config.SP]
  | .push _ | .call _ | .ret => [Config.SP]
  | .cmp _ _ | .prn _ | .jmp _ | .jeq _ | .jne _ | .hlt => []

/-- Whether JEQ or JNE is taken (R150, R152); false of every other instruction. -/
def branchTaken (i : Instr) (fl : Byte) : Bool :=
  match i with
  | .jeq _ => fl.getLsbD Config.FL_EQ_BIT
  | .jne _ => !fl.getLsbD Config.FL_EQ_BIT
  | .hlt | .ret | .push _ | .pop _ | .prn _ | .call _ | .jmp _ | .not _ | .ldi _ _ | .add _ _ | .mul _ _ | .mod _ _
  | .cmp _ _ | .and _ _ | .or _ _ | .xor _ _ | .shl _ _ | .shr _ _ => false

/-- The readers of registers, by the list of R26. -/
def readRegs (i : Instr) (fl : Byte) : List Byte :=
  match i with
  | .add a b | .mul a b | .mod a b | .cmp a b | .and a b | .or a b | .xor a b | .shl a b | .shr a b => [a, b]
  | .not a | .prn a | .jmp a => [a]
  | .push a | .call a => [a, Config.SP]
  | .pop _ | .ret => [Config.SP]
  | .jeq a | .jne a => if branchTaken i fl then [a] else []
  | .ldi _ _ | .hlt => []

/-- The register operands an instruction index-checks in a state, in the order it does (R162, R167): those of the
instruction, but for JEQ and JNE not taken, which check theirs only under BRANCH_CHECKS_UNTAKEN (R153). -/
def checkedRegs (i : Instr) (s : State) : List Byte :=
  match i with
  | .jeq a | .jne a => if branchTaken i s.fl || s.params.branchChecksUntaken then [a] else []
  | .push a | .pop a | .prn a | .call a | .jmp a | .not a | .ldi a _ => [a]
  | .add a b | .mul a b | .mod a b | .cmp a b | .and a b | .or a b | .xor a b | .shl a b | .shr a b => [a, b]
  | .hlt | .ret => []

/-- The addresses an instruction stores to: the data writes of the table of R49, at the address the meanings use. -/
def storeAddrs (i : Instr) (s : State) : List Nat :=
  match i with
  | .push _ | .call _ => [pushAddr s]
  | .hlt | .ret | .pop _ | .prn _ | .jmp _ | .jeq _ | .jne _ | .not _ | .ldi _ _ | .add _ _ | .mul _ _ | .mod _ _
  | .cmp _ _ | .and _ _ | .or _ _ | .xor _ _ | .shl _ _ | .shr _ _ => []

/-- A state with FL given the value `v` from outside. -/
def withFl (v : Byte) (s : State) : State := { s with fl := v }

/-- A state with the opcode map `om` from outside. -/
def withMap (om : OpcodeMap) (s : State) : State := { s with params := { s.params with opcodeMap := om } }

/-- A result with a change made to its next state, if it has one. -/
def mapNext (g : State → State) : Result → Result
  | .next s => .next (g s)
  | .fault f => .fault f
  | .refused r => .refused r

end Sys2Proof.Machine
end

