-- ==== Sys2Proof/WellFormed.lean ====
section
/-! DEFINITION. When an instruction term names only registers that exist.  Every term is encodable and
every term decodes (R65); a term that is not well-formed is one whose use of a register operand raises
InvalidRegister (R162). -/

namespace Sys2Proof

/-- A register operand that names one of R0 to R7 (R27). -/
abbrev validReg (a : Byte) : Prop := a.toNat < Config.NREG

/-- The register operands of an instruction, in the order it uses them (R64, R94).  An immediate is
none of them (R126: "The immediate is never checked"). -/
def Instr.regOperands : Instr → List Byte
  | .hlt | .ret => []
  | .push a | .pop a | .prn a | .call a | .jmp a | .jeq a | .jne a | .not a => [a]
  | .ldi a _ => [a]
  | .add a b | .mul a b | .mod a b | .cmp a b | .and a b | .or a b | .xor a b | .shl a b | .shr a b => [a, b]

/-- Every register operand names a register. -/
abbrev Instr.WellFormed (i : Instr) : Prop := ∀ r ∈ i.regOperands, validReg r

end Sys2Proof
end

