-- ==== Sys2Proof/Certificates/Slice0/Obligations.lean ====
section
/-! DEFINITION. The statements for the provers.  Each docstring names the rule of spec/ it formalises, and says
where a clause is the model's or the spec's own choice. -/

open Sys2Proof Sys2Proof.Machine

/-! ## Encoding -/

/-- Words written out from the formats of R64 and the default map of R67 decode to their instructions, whatever the bytes
that are not operands (R66).  HLT, PRN and LDI have their byte from the source; the others are the spec's choice
(D2; log entry 1). -/
def Obligations.SpecWordsDecode : Prop :=
  decode Params.defaults { ir := 0x82, opA := 0, opB := 8 } = .known (.ldi 0 8) ∧
  decode Params.defaults { ir := 0x47, opA := 0, opB := 0xEE } = .known (.prn 0) ∧
  decode Params.defaults { ir := 0x01, opA := 0xEE, opB := 0xEE } = .known .hlt ∧
  decode Params.defaults { ir := 0x11, opA := 0xEE, opB := 0xEE } = .known .ret ∧
  decode Params.defaults { ir := 0x45, opA := 2, opB := 0xEE } = .known (.push 2) ∧
  decode Params.defaults { ir := 0x50, opA := 1, opB := 0xEE } = .known (.call 1) ∧
  decode Params.defaults { ir := 0x55, opA := 2, opB := 0xEE } = .known (.jeq 2) ∧
  decode Params.defaults { ir := 0x69, opA := 0, opB := 9 } = .known (.not 0) ∧
  decode Params.defaults { ir := 0xA2, opA := 0, opB := 1 } = .known (.mul 0 1) ∧
  decode Params.defaults { ir := 0xA4, opA := 9, opB := 2 } = .known (.mod 9 2) ∧
  decode Params.defaults { ir := 0xAD, opA := 0, opB := 1 } = .known (.shr 0 1)

/-- Decode of encode is the instruction, with every operand at every byte value, whatever bytes follow it, for every
OPCODE_MAP that agrees with the spec and every UNNAMED_OPCODES (R64 to R67, R72). -/
def Obligations.DecodeInvertsEncode : Prop :=
  ∀ (p : Params) (i : Instr) (x y : Byte), p.opcodeMap.wf →
    decode p (Window.ofBytes (encode p.opcodeMap i ++ [x, y])) = .known i

/-- The other direction, for every OPCODE_MAP that agrees with the spec: the encoding of what a window decodes to is
`1 + n(ir)` bytes long for the opcode byte fetched (R62, R72), and the window begins with it, but for a byte that NOT
ignores where the map gives NOT two (R114). -/
def Obligations.EncodeInvertsDecode : Prop :=
  ∀ (p : Params) (w : Window) (i : Instr), p.opcodeMap.wf → decode p w = .known i →
    (encode p.opcodeMap i).length = 1 + operandCount w.ir ∧
    (encode p.opcodeMap i).take (1 + i.mnemonic.operands) = w.bytes.take (1 + i.mnemonic.operands) ∧
    (i.mnemonic ≠ .NOT ∨ operandCount w.ir = 1 → encode p.opcodeMap i = w.bytes.take (1 + operandCount w.ir))

/-- Every opcode byte is known, unnamed or unknown (R69 to R71), by the byte alone, known bytes first (R80); with the
default parameters exactly 236 of the 256 values are unknown (R69). -/
def Obligations.EveryOpcodeByteIsClassified : Prop :=
  (∀ (p : Params) (w : Window),
    ((∃ m, w.ir = p.opcodeMap.byte m) →
      ∃ m, w.ir = p.opcodeMap.byte m ∧ decode p w = .known (assemble m w.opA w.opB)) ∧
    ((∀ m, w.ir ≠ p.opcodeMap.byte m) → w.ir ∈ p.unnamedOpcodes → decode p w = .unnamed w.ir) ∧
    ((∀ m, w.ir ≠ p.opcodeMap.byte m) → w.ir ∉ p.unnamedOpcodes → decode p w = .unknown w.ir)) ∧
  (List.range 256).countP (fun n => decodeOp Params.defaults (BitVec.ofNat 8 n) == .unknown) = 236

/-! ## Registers, memory, ALU -/

/-- Register access (R27, R28), and no register is hardwired (R23): a written register reads as what was written,
no other changes, and an index above 7 raises InvalidRegister on a read and on a write. -/
def Obligations.RegisterHoldsWhatWasWritten : Prop :=
  ∀ (s : State) (i v : Byte),
    (i.toNat ≤ 7 → ∃ t old, readReg s i = .ok old ∧ s.reg? i = some old ∧
      writeReg s i v = .ok t ∧ readReg t i = .ok v ∧ t.pc = s.pc ∧ Frame [i] [] s t) ∧
    (7 < i.toNat → readReg s i = .error (.invalidRegister i s.context) ∧
      writeReg s i v = .error (.invalidRegister i s.context))

/-- Memory access (R47, R48): inside 0..255 a read answers the byte and a write stores it and nothing else; outside,
both raise OutOfBounds with the address. -/
def Obligations.MemoryAccessIsRangeChecked : Prop :=
  ∀ (s : State) (a : Nat) (v : Byte),
    (a ≤ 255 → memRead s a = .ok (Memory.read s.mem a) ∧
      ∃ t, memWrite s a v = .ok t ∧ memRead t a = .ok v ∧ t.pc = s.pc ∧ Frame [] [a] s t) ∧
    (255 < a → memRead s a = .error (.outOfBounds a s.context) ∧
      memWrite s a v = .error (.outOfBounds a s.context))

/-- Memories in the canonical form that read the same at every address are the same data (the model's own form of
`mem[0..255]`, R46; log entry 3). -/
def Obligations.CanonicalMemoryIsExtensional : Prop :=
  ∀ m n : Memory, Memory.wf m → Memory.wf n → (∀ a, Memory.read m a = Memory.read n a) → m = n

/-- The ALU function, row by row of the table of R101, with the bitwise operations bit by bit (R109).  The last clause is
the model's own: R100 has no operation but the ten reach the ALU, and that `alu` then answers nothing is the choice of
log entry 19 (the spec's decision D22) in the form of log entry 24, where an output that is not written is absent. -/
def Obligations.AluFunctionTable : Prop :=
  (∀ A B : Byte,
    alu .ADD A B = some (AluOut.mk (some (BitVec.ofNat 8 ((A.toNat + B.toNat) % 256))) none false) ∧
    alu .MUL A B = some (AluOut.mk (some (BitVec.ofNat 8 ((A.toNat * B.toNat) % 256))) none false) ∧
    alu .CMP A B = some (AluOut.mk none
      (some (if A.toNat = B.toNat then 1 else if B.toNat < A.toNat then 2 else 4)) false) ∧
    (∃ r, alu .AND A B = some (AluOut.mk (some r) none false) ∧
      ∀ k < 8, r.getLsbD k = (A.getLsbD k && B.getLsbD k)) ∧
    (∃ r, alu .OR A B = some (AluOut.mk (some r) none false) ∧
      ∀ k < 8, r.getLsbD k = (A.getLsbD k || B.getLsbD k)) ∧
    (∃ r, alu .XOR A B = some (AluOut.mk (some r) none false) ∧
      ∀ k < 8, r.getLsbD k = (A.getLsbD k != B.getLsbD k)) ∧
    (∃ r, alu .NOT A B = some (AluOut.mk (some r) none false) ∧ r.toNat = 255 - A.toNat ∧
      ∀ k < 8, r.getLsbD k = !A.getLsbD k) ∧
    alu .SHL A B = some (AluOut.mk (some (BitVec.ofNat 8 ((A.toNat * 2 ^ B.toNat) % 256))) none false) ∧
    (∃ r, alu .SHR A B = some (AluOut.mk (some r) none false) ∧ r.toNat = A.toNat / 2 ^ B.toNat) ∧
    (B.toNat ≠ 0 → ∃ r, alu .MOD A B = some (AluOut.mk (some r) none false) ∧
      r.toNat = A.toNat % B.toNat) ∧
    (B.toNat = 0 → alu .MOD A B = some (AluOut.mk none none true))) ∧
  (∀ op ∈ [Mnemonic.HLT, .RET, .PUSH, .POP, .PRN, .CALL, .JMP, .JEQ, .JNE, .LDI], ∀ A B, alu op A B = none)

/-- A shift of 8 or more gives 0 in both directions; the amount is not reduced mod 8 (R116, R118, R120). -/
def Obligations.ShiftsByEightOrMoreClear : Prop :=
  ∀ (s : State) (a b A B : Byte), s.reg? a = some A → s.reg? b = some B → 8 ≤ B.toNat →
    WritesOneReg (.shl a b) s a 0 ∧ WritesOneReg (.shr a b) s a 0

/-! ## ALU instructions -/

/-- ADD, MUL, AND, OR, XOR, SHL and SHR complete for every valid pair of indices (the same register twice and R7 among
them), leave the exact integer result mod 256 in register A, advance `pc` by `1 + n(ir)` (R85), and change nothing else: no
flag, no memory (R102; R95 and R97 for the frame). -/
def Obligations.AluResultsAreExactModulo256 : Prop :=
  ∀ (s : State) (a b A B : Byte), s.reg? a = some A → s.reg? b = some B →
    WritesOneReg (.add a b) s a (BitVec.ofNat 8 ((A.toNat + B.toNat) % 256)) ∧
    WritesOneReg (.mul a b) s a (BitVec.ofNat 8 ((A.toNat * B.toNat) % 256)) ∧
    WritesOneReg (.and a b) s a (BitVec.ofNat 8 ((A.toNat &&& B.toNat) % 256)) ∧
    WritesOneReg (.or a b) s a (BitVec.ofNat 8 ((A.toNat ||| B.toNat) % 256)) ∧
    WritesOneReg (.xor a b) s a (BitVec.ofNat 8 ((A.toNat ^^^ B.toNat) % 256)) ∧
    WritesOneReg (.shl a b) s a (BitVec.ofNat 8 ((A.toNat <<< B.toNat) % 256)) ∧
    WritesOneReg (.shr a b) s a (BitVec.ofNat 8 ((A.toNat >>> B.toNat) % 256))

/-- NOT complements register A and reads nothing else (R115); its length, 2 by default, is the map's (D28; log entry 1). -/
def Obligations.NotComplementsRegister : Prop :=
  ∀ (s : State) (a A : Byte),
    (s.reg? a = some A → WritesOneReg (.not a) s a (BitVec.ofNat 8 (255 - A.toNat))) ∧
    (7 < a.toNat → RejectsReg (.not a) s a)

/-- CMP completes for every valid pair, leaves exactly 1, 2 or 4 in the whole of FL by unsigned comparison, advances
`pc` by `1 + n(ir)` (R85) and changes nothing else: no register, no memory (R106; R95 for the frame). -/
def Obligations.CmpSetsExactlyOneFlag : Prop :=
  ∀ (s : State) (a b A B : Byte), s.reg? a = some A → s.reg? b = some B →
    ∃ t, exec (.cmp a b) s = .next t ∧ t.pc = s.pc + advanceOf .CMP s ∧ FrameExceptFl [] [] s t ∧
      (A.toNat = B.toNat → t.fl = 1) ∧ (B.toNat < A.toNat → t.fl = 2) ∧ (A.toNat < B.toNat → t.fl = 4)

/-- MOD by a nonzero divisor completes with the remainder, which is below the divisor (R121, R123). -/
def Obligations.ModGivesRemainder : Prop :=
  ∀ (s : State) (a b A B : Byte), s.reg? a = some A → s.reg? b = some B → B.toNat ≠ 0 →
    ∃ r : Byte, WritesOneReg (.mod a b) s a r ∧ r.toNat < B.toNat ∧
      A.toNat = B.toNat * (A.toNat / B.toNat) + r.toNat

/-- MOD by zero halts with the diagnostic and writes no register, no flag, no memory and no output (R122).  `pc` after
it is a free value: see PcAdvancesByOnePlusOperandCount. -/
def Obligations.ModByZeroHaltsAndWritesNothing : Prop :=
  ∀ (s : State) (a b A : Byte), s.reg? a = some A → s.reg? b = some 0 →
    ∃ t, exec (.mod a b) s = .next t ∧
      t.run = .halted .modZero ∧ t.dg = s.dg ++ [.modByZero (s.params.opcodeMap.byte .MOD) s.pc] ∧
      SameRegsExcept [] s t ∧ SameMemExcept [] s t ∧ t.fl = s.fl ∧ t.out = s.out ∧
      t.latch = s.latch ∧ t.params = s.params

/-! ## Load, output and stack instructions -/

/-- LDI, whole: its bytes and length, its effect on every valid register (R7 among them), every immediate, and its rejection
(R126). -/
def Obligations.LdiLoadsImmediate : Prop :=
  ∀ (s : State) (a imm : Byte),
    (∀ om : OpcodeMap, om.wf → encode om (.ldi a imm) = [0x82, a, imm]) ∧
    (s.params.opcodeMap.wf → advanceOf .LDI s = 3) ∧
    (a.toNat ≤ 7 → WritesOneReg (.ldi a imm) s a imm) ∧
    (7 < a.toNat → RejectsReg (.ldi a imm) s a)

/-- PRN, whole: its bytes and length, the emitted byte and nothing else but `pc`, and its rejection, in which nothing is emitted
(R129; R128 for the frame). -/
def Obligations.PrnEmitsRegister : Prop :=
  ∀ (s : State) (a A : Byte),
    (∀ om : OpcodeMap, om.wf → encode om (.prn a) = [0x47, a]) ∧
    (s.params.opcodeMap.wf → advanceOf .PRN s = 2) ∧
    (s.reg? a = some A → ∃ t, exec (.prn a) s = .next t ∧ t.out = s.out ++ [A] ∧ t.dg = s.dg ∧
      t.pc = s.pc + advanceOf .PRN s ∧
      SameRegsExcept [] s t ∧ SameMemExcept [] s t ∧ t.fl = s.fl ∧ SameControl s t) ∧
    (7 < a.toNat → RejectsReg (.prn a) s a)

/-- PUSH stores at the decremented SP, mod 256 (so SP = 0 wraps to 0xFF), what register `a` then holds: for R7 the
decremented SP (R131 to R133; the order is D13's, log entry 9).  Only SP, that cell and `pc` change. -/
def Obligations.PushStoresAtDecrementedSp : Prop :=
  ∀ (s : State) (a A : Byte),
    (s.reg? a = some A → ∃ t, exec (.push a) s = .next t ∧ t.sp = s.sp - 1 ∧ t.pc = s.pc + advanceOf .PUSH s ∧
      (a ≠ 7 → Memory.read t.mem (pushAddr s) = A) ∧ (a = 7 → Memory.read t.mem (pushAddr s) = s.sp - 1) ∧
      (s.sp = 0 → pushAddr s = 255) ∧ (s.sp ≠ 0 → pushAddr s = s.sp.toNat - 1) ∧
      Frame [7] [pushAddr s] s t) ∧
    (7 < a.toNat → RejectsReg (.push a) s a)

/-- POP loads the byte at SP into register `a` and then increments SP mod 256; POP R7 ends with the popped byte plus
one (R135 to R137; the order is D13's, log entry 9).  Memory is unchanged. -/
def Obligations.PopLoadsFromSp : Prop :=
  ∀ (s : State) (a : Byte),
    (a.toNat ≤ 7 → ∃ t, exec (.pop a) s = .next t ∧ t.pc = s.pc + advanceOf .POP s ∧ Frame [a, 7] [] s t ∧
      (a ≠ 7 → t.reg? a = some (Memory.read s.mem s.sp.toNat) ∧ t.sp = s.sp + 1) ∧
      (a = 7 → t.sp = Memory.read s.mem s.sp.toNat + 1)) ∧
    (7 < a.toNat → RejectsReg (.pop a) s a)

/-- PUSH then POP of the same register restores it and SP, and leaves its value in the cell below (R134). -/
def Obligations.PushThenPopRestores : Prop :=
  ∀ (s : State) (a A : Byte), s.reg? a = some A → a ≠ 7 →
    ∃ t u, exec (.push a) s = .next t ∧ exec (.pop a) t = .next u ∧
      u.reg? a = some A ∧ u.sp = s.sp ∧ Memory.read u.mem (pushAddr s) = A ∧ Frame [] [pushAddr s] s u

/-! ## Control flow -/

/-- CALL pushes `p + 2`, which fits a byte where a fetch can start, and loads `pc` with what register `a` then holds:
for R7 the decremented SP (R141 to R143; the order is D13's, log entry 9).  Only SP, that cell and `pc` change. -/
def Obligations.CallPushesReturnAddress : Prop :=
  ∀ (s : State) (a A : Byte),
    (s.reg? a = some A → ∃ t, exec (.call a) s = .next t ∧ t.sp = s.sp - 1 ∧
      (a ≠ 7 → t.pc = A.toNat) ∧ (a = 7 → t.pc = (s.sp - 1).toNat) ∧
      Memory.read t.mem (pushAddr s) = BitVec.ofNat 8 (s.pc + 2) ∧
      (s.pc ≤ 253 → (Memory.read t.mem (pushAddr s)).toNat = s.pc + 2) ∧
      Frame [7] [pushAddr s] s t) ∧
    (7 < a.toNat → RejectsReg (.call a) s a)

/-- RET completes in every state: `pc` is the byte at SP, SP is incremented mod 256, nothing else changes (R145, R146). -/
def Obligations.RetPopsPc : Prop :=
  ∀ s : State, ∃ t, exec .ret s = .next t ∧ t.pc = (Memory.read s.mem s.sp.toNat).toNat ∧ t.sp = s.sp + 1 ∧
    Frame [7] [] s t

/-- CALL at address A, jumping to an address that holds RET, resumes at A + 2 with SP as before, in two steps of the
machine (R147); the RET is at a fetchable address. -/
def Obligations.CallThenRetResumes : Prop :=
  ∀ (s : State) (a A : Byte), s.run = .running → s.pc ≤ 253 → fetchedOp s = .known (.call a) →
    s.reg? a = some A → a ≠ 7 →
    ∃ t, step s = .next t ∧ t.pc = A.toNat ∧
      (A.toNat ≤ 253 → fetchedOp t = .known .ret →
        ∃ u, step t = .next u ∧ u.pc = s.pc + 2 ∧ u.sp = s.sp)

/-- JMP loads `pc` from its register, unmasked and with no offset, and changes nothing else (R148, R139). -/
def Obligations.JmpLoadsPc : Prop :=
  ∀ (s : State) (a A : Byte),
    (s.reg? a = some A → ∃ t, exec (.jmp a) s = .next t ∧ t.pc = A.toNat ∧ Frame [] [] s t) ∧
    (7 < a.toNat → RejectsReg (.jmp a) s a)

/-- JEQ and JNE: taken on bit E set and clear, `pc` from the register; not taken, `pc` plus the branch's own length (R85),
which is 2 under every map that agrees with the spec (R64), with the register index-checked only under
BRANCH_CHECKS_UNTAKEN (R150 to R153; that parameter's default is D12's, log entry 5).  Nothing but `pc` changes. -/
def Obligations.BranchesFollowBitE : Prop :=
  ∀ (s : State) (a A : Byte) (i : Instr), (i = .jeq a ∧ s.fl.getLsbD 0 = true ∨ i = .jne a ∧ s.fl.getLsbD 0 = false →
      (s.reg? a = some A → ∃ t, exec i s = .next t ∧ t.pc = A.toNat ∧ Frame [] [] s t) ∧
      (7 < a.toNat → RejectsReg i s a)) ∧
    (i = .jeq a ∧ s.fl.getLsbD 0 = false ∨ i = .jne a ∧ s.fl.getLsbD 0 = true →
      (a.toNat ≤ 7 ∨ s.params.branchChecksUntaken = false →
        ∃ t, exec i s = .next t ∧ t.pc = s.pc + advanceOf i.mnemonic s ∧ Frame [] [] s t) ∧
      (s.params.opcodeMap.wf → advanceOf i.mnemonic s = 2) ∧
      (7 < a.toNat → s.params.branchChecksUntaken = true → RejectsReg i s a))

/-- HLT, whole: its byte, the halt, `pc` moved by one in the same step (the spec's decision D10, log entry 11), and nothing else
(R155). -/
def Obligations.HltHalts : Prop :=
  (∀ om : OpcodeMap, om.wf → encode om .hlt = [0x01]) ∧
  ∀ s : State, ∃ t, exec .hlt s = .next t ∧ t.run = .halted .hlt ∧
    t.pc = s.pc + advanceOf .HLT s ∧ (s.params.opcodeMap.wf → advanceOf .HLT s = 1) ∧ t.fl = s.fl ∧
    SameRegsExcept [] s t ∧ SameMemExcept [] s t ∧ SameTraces s t ∧
    t.latch = s.latch ∧ t.params = s.params ∧ t.draws = s.draws

/-! ## Every instruction -/

/-- InvalidRegister is raised exactly where the index of a register the instruction uses is above 7, with the first such
index in the order A before B (R162; the order is the spec's decision D20, R167); otherwise the instruction COMPLETES.
Under BRANCH_CHECKS_UNTAKEN an untaken JEQ or JNE uses its operand too (R153, the spec's decision D12).  A step raises it
only for a register its instruction checks, so never at an unknown opcode. -/
def Obligations.InvalidRegisterExactlyWhenIndexAboveSeven : Prop :=
  ∀ (i : Instr) (s : State),
    ((∀ r ∈ checkedRegs i s, r.toNat ≤ 7) → ∃ t, exec i s = .next t) ∧
    (∀ r, (checkedRegs i s).find? (fun x => decide (7 < x.toNat)) = some r → RejectsReg i s r) ∧
    (∀ r c, step s = .fault (.invalidRegister r c) → ∃ j, fetchedOp s = .known j ∧ r ∈ checkedRegs j s)

/-- The writers of registers are those of the list of R25, and each writes only its listed registers. -/
def Obligations.OnlyListedInstructionsWriteRegisters : Prop :=
  ∀ (i : Instr) (s t : State), exec i s = .next t → SameRegsExcept (writtenRegs i) s t

/-- The readers of registers are those of the list of R26: a register outside an instruction's list can hold anything
without a change to what the instruction does to everything else. -/
def Obligations.OnlyListedInstructionsReadRegisters : Prop :=
  ∀ (i : Instr) (s : State) (r v : Byte), r ∉ readRegs i s.fl →
    exec i (s.setReg r v) =
      mapNext (fun t => if r ∈ writtenRegs i then t else t.setReg r v) (exec i s)

/-- FL is written only by CMP, and then is exactly 1, 2 or 4; a step that changes FL fetched a CMP (R34). -/
def Obligations.OnlyCmpWritesFl : Prop :=
  (∀ (i : Instr) (s t : State), exec i s = .next t →
    (i.mnemonic ≠ .CMP → t.fl = s.fl) ∧ (i.mnemonic = .CMP → t.fl = 1 ∨ t.fl = 2 ∨ t.fl = 4)) ∧
  (∀ s t : State, step s = .next t → t.fl = s.fl ∨
    (∃ a b, fetchedOp s = .known (.cmp a b)) ∧ (t.fl = 1 ∨ t.fl = 2 ∨ t.fl = 4))

/-- FL is read only by JEQ and JNE, and only its bit E: FL can otherwise hold anything without a change to what an
instruction does to everything else (R35, R151). -/
def Obligations.OnlyBranchesReadFlAndOnlyBitE : Prop :=
  ∀ (i : Instr) (s : State) (v : Byte),
    (i.mnemonic = .JEQ ∨ i.mnemonic = .JNE → v.getLsbD 0 = s.fl.getLsbD 0) →
    exec i (withFl v s) = mapNext (fun t => if i.mnemonic = .CMP then t else withFl v t) (exec i s)

/-- Memory is written only by PUSH and CALL, one byte, at SP after the decrement (R49). -/
def Obligations.OnlyPushAndCallStore : Prop :=
  ∀ (i : Instr) (s t : State), exec i s = .next t → SameMemExcept (storeAddrs i s) s t

/-- The rest of the frame of every instruction: only PRN appends to `out`; only a MOD that halts writes `dg`, the run state
(HLT aside) or the draw counter; the latches and the launch parameters are never written (R37, R39, R172; log entries
5 and 6 for the model's own two fields). -/
def Obligations.InstructionsKeepTracesAndControl : Prop :=
  ∀ (i : Instr) (s t : State), exec i s = .next t →
    t.latch = s.latch ∧ t.params = s.params ∧
    (i.mnemonic ≠ .PRN → t.out = s.out) ∧
    (i.mnemonic ≠ .HLT → i.mnemonic ≠ .MOD → t.run = s.run) ∧
    (i.mnemonic ≠ .MOD → t.dg = s.dg ∧ t.draws = s.draws) ∧
    (i.mnemonic = .MOD → SameTraces s t ∧ t.run = s.run ∧ t.draws = s.draws ∨
      t.run = .halted .modZero ∧ t.dg = s.dg ++ [.modByZero (s.params.opcodeMap.byte .MOD) s.pc])

/-- PC advancement (R85): every instruction but CALL, RET, JMP, JEQ and JNE advances `pc` by `1 + operand_count` of its
opcode byte, JEQ and JNE do so when not taken, and the five load a byte otherwise.  Two cases are choices: that HLT is
among the instructions that advance, in the step that halts, is the spec's own decision D10 (R86; log entry 11), and `pc`
after a MOD by zero is the draw of R87 (D11; log entry 6). -/
def Obligations.PcAdvancesByOnePlusOperandCount : Prop :=
  ∀ (i : Instr) (s t : State), exec i s = .next t →
    (i.mnemonic.setsPc = false → i.mnemonic ≠ .MOD ∨ t.dg = s.dg →
      t.pc = s.pc + (1 + operandCount (s.params.opcodeMap.byte i.mnemonic))) ∧
    (i.mnemonic = .MOD → t.dg ≠ s.dg → t.pc = s.pc ∨ t.pc = s.pc + 3) ∧
    (i.mnemonic = .JEQ ∨ i.mnemonic = .JNE → branchTaken i s.fl = false →
      t.pc = s.pc + (1 + operandCount (s.params.opcodeMap.byte i.mnemonic))) ∧
    (i.mnemonic = .CALL ∨ i.mnemonic = .RET ∨ i.mnemonic = .JMP ∨ branchTaken i s.fl = true → t.pc ≤ 255)

/-! ## The step -/

/-- A step of a running machine with its fetch in range runs the instruction the three fetched bytes decode to, on the
state with those bytes latched, and empties the latches (R77, R78, R80). -/
def Obligations.StepRunsDecodedInstruction : Prop :=
  ∀ (s : State) (i : Instr), s.run = .running → s.pc ≤ 253 →
    decode s.params
      { ir := Memory.read s.mem s.pc, opA := Memory.read s.mem (s.pc + 1), opB := Memory.read s.mem (s.pc + 2) } =
        .known i →
    step s = retireResult (exec i (latched s))

/-- Fetch at 254 or above aborts with OutOfBounds before decode, whatever the opcode (R79, the spec's decision D9), and
records `pc` and the bytes read before the abort (R163). -/
def Obligations.FetchPastTheEndAborts : Prop :=
  ∀ s : State, s.run = .running →
    (s.pc = 254 → step s = .fault (.outOfBounds 256 (AbortContext.mk 254
      (Latch.mk (some (Memory.read s.mem 254)) (some (Memory.read s.mem 255)) none)))) ∧
    (s.pc = 255 → step s = .fault (.outOfBounds 256 (AbortContext.mk 255
      (Latch.mk (some (Memory.read s.mem 255)) none none)))) ∧
    (256 ≤ s.pc → step s = .fault (.outOfBounds s.pc (AbortContext.mk s.pc
      (Latch.mk none none none))))

/-- An unknown opcode records its diagnostic, moves `pc` one byte whatever its top bits, changes nothing else, and the
run continues (R83). -/
def Obligations.UnknownOpcodeIsSkipped : Prop :=
  ∀ s : State, s.run = .running → s.pc ≤ 253 →
    (∀ m, Memory.read s.mem s.pc ≠ s.params.opcodeMap.byte m) → Memory.read s.mem s.pc ∉ s.params.unnamedOpcodes →
    ∃ t, step s = .next t ∧ t.dg = s.dg ++ [.unknownOpcode (Memory.read s.mem s.pc) s.pc] ∧ t.pc = s.pc + 1 ∧
      t.run = .running ∧ t.fl = s.fl ∧ t.out = s.out ∧ t.params = s.params ∧ t.draws = s.draws ∧
      SameRegsExcept [] s t ∧ SameMemExcept [] s t

/-- An opcode byte in UNNAMED_OPCODES is refused (R70, R84; the spec's decision D3). -/
def Obligations.UnnamedOpcodeIsRefused : Prop :=
  ∀ s : State, s.run = .running → s.pc ≤ 253 →
    (∀ m, Memory.read s.mem s.pc ≠ s.params.opcodeMap.byte m) → Memory.read s.mem s.pc ∈ s.params.unnamedOpcodes →
    step s = .refused (.unnamedOpcode (Memory.read s.mem s.pc) s.pc)

/-- A machine that is not RUNNING changes no more, however many steps are asked of it (R38; that `step` answers the same
state is the model's choice, log entry 7). -/
def Obligations.EndedMachineNeverChanges : Prop :=
  ∀ (k : Nat) (s : State), s.run ≠ .running → Host.Core.run Sys2Proof.core k s = .next s

/-- OutOfBounds is raised by the fetch of an instruction at `pc >= 254` and by nothing else, with the offending address
(R161; that all three fetch reads are checked is the spec's decision D9). -/
def Obligations.OutOfBoundsOnlyFromFetch : Prop :=
  (∀ (i : Instr) (s : State) (a : Nat) (c : AbortContext), exec i s ≠ .fault (.outOfBounds a c)) ∧
  (∀ s : State, (∃ a c, step s = .fault (.outOfBounds a c)) ↔ s.run = .running ∧ 254 ≤ s.pc) ∧
  (∀ (s : State) (a : Nat) (c : AbortContext), step s = .fault (.outOfBounds a c) → a = max 256 s.pc ∧ c.pc = s.pc)

/-- InvalidRegister of a step names the `pc` of the instruction and all three fetched bytes (R163, R169). -/
def Obligations.InvalidRegisterRecordsFullContext : Prop :=
  ∀ (s : State) (r : Byte) (c : AbortContext), step s = .fault (.invalidRegister r c) →
    7 < r.toNat ∧ c = (AbortContext.mk s.pc
      (Latch.mk (some (Memory.read s.mem s.pc)) (some (Memory.read s.mem (s.pc + 1))) (some (Memory.read s.mem (s.pc + 2)))))

/-- No instruction and no step raises UnsupportedOperation (R165). -/
def Obligations.UnsupportedOperationIsUnreachable : Prop :=
  (∀ (i : Instr) (s : State) (c : AbortContext), exec i s ≠ .fault (.unsupportedOperation c)) ∧
  (∀ (s : State) (c : AbortContext), step s ≠ .fault (.unsupportedOperation c))

/-- A step is refused only at an unnamed opcode (R84, R179). -/
def Obligations.OnlyUnnamedOpcodesAreRefused : Prop :=
  ∀ (s : State) (r : Refusal), step s = .refused r →
    r = .unnamedOpcode (Memory.read s.mem s.pc) s.pc ∧ Memory.read s.mem s.pc ∈ s.params.unnamedOpcodes

/-- A running machine leaves RUNNING only by HLT, by MOD with a zero divisor, or by an abort (R91): a next state of any
other instruction is running. -/
def Obligations.RunEndsOnlyByHltOrModZero : Prop :=
  ∀ s t : State, s.run = .running → step s = .next t →
    t.run = .running ∨
    (t.run = .halted .hlt ∧ fetchedOp s = .known .hlt) ∨
    (t.run = .halted .modZero ∧ ∃ a b, fetchedOp s = .known (.mod a b) ∧ s.reg? b = some 0)

/-- The traces of a step: `out` grows only by a PRN, by its register's value; `dg` only by an unknown opcode or a MOD by
zero, by its record (R39, R172).  Both are empty at reset. -/
def Obligations.TracesGrowOnlyByTheirInstructions : Prop :=
  (∀ l : Launch, l.state.out = [] ∧ l.state.dg = []) ∧
  ∀ s t : State, step s = .next t →
    (t.out = s.out ∨ ∃ a A, fetchedOp s = .known (.prn a) ∧ s.reg? a = some A ∧ t.out = s.out ++ [A]) ∧
    (t.dg = s.dg ∨ (∃ ir, fetchedOp s = .unknown ir ∧ t.dg = s.dg ++ [.unknownOpcode ir s.pc]) ∨
      (∃ a b, fetchedOp s = .known (.mod a b) ∧ s.reg? b = some 0 ∧
        t.dg = s.dg ++ [.modByZero (Memory.read s.mem s.pc) s.pc]))

/-- The launch parameters hold for the whole run: no step changes them (R8; that State carries them is the model's
choice, log entry 5). -/
def Obligations.LaunchParametersAreFixed : Prop :=
  ∀ s t : State, step s = .next t → t.params = s.params

/-- An instruction uses the operand bytes of its own fetch: a PUSH whose store overwrites its own operand byte still
pushes the register that byte named (R192). -/
def Obligations.PushUsesOperandReadAtFetch : Prop :=
  ∀ (s : State) (a A : Byte), s.params.opcodeMap.wf → s.run = .running → s.pc ≤ 253 →
    Memory.read s.mem s.pc = s.params.opcodeMap.byte .PUSH → Memory.read s.mem (s.pc + 1) = a → s.reg? a = some A →
    a ≠ 7 → s.sp.toNat = s.pc + 2 →
    ∃ t, step s = .next t ∧ Memory.read t.mem (s.pc + 1) = A ∧ t.sp.toNat = s.pc + 1 ∧ t.pc = s.pc + advanceOf .PUSH s

/-- A stored byte is the opcode the next fetch of its address reads, with no fence (R59, R187): after a PUSH whose `pc`
then stands at the cell it stored, that cell's new byte is fetched. -/
def Obligations.StoreIsSeenByNextFetch : Prop :=
  ∀ (s : State) (a A : Byte), s.reg? a = some A → a ≠ 7 → s.pc + advanceOf .PUSH s = pushAddr s →
    s.pc + advanceOf .PUSH s ≤ 253 →
    ∃ t w u, exec (.push a) s = .next t ∧ fetch t = .ok (w, u) ∧ w.ir = A

/-! ## Reset, boot and the invariant -/

/-- Boot, for every image that fits and every choice of the launch parameters (a map and unnamed opcodes as R67 and D3
describe them): the whole table of R44 (R180, R181; `pc` = 0
is the spec's decision D4), and the invariant. -/
def Obligations.BootGivesResetValues : Prop :=
  ∀ l : Launch, Memory.wf l.initMem → Params.wf l.params → l.image.length ≤ 256 →
    ∃ s, boot l = .next s ∧ s.reg? 7 = some 0xF4 ∧ (∀ k : Fin 7, s.reg? (BitVec.ofNat 8 k) = some l.initX[k]) ∧
      s.fl = l.initFl ∧ s.pc = 0 ∧
      (∀ a, (h : a < l.image.length) → Memory.read s.mem a = l.image[a]) ∧
      (∀ a, l.image.length ≤ a → Memory.read s.mem a = Memory.read l.initMem a) ∧
      s.run = .running ∧ s.out = [] ∧ s.dg = [] ∧ s.latch = Latch.empty ∧ s.params = l.params ∧ Inv s

/-- An image longer than memory is refused at load, before the run (R182; the spec's decision D7). -/
def Obligations.OversizedImageIsRefused : Prop :=
  ∀ l : Launch, 256 < l.image.length → boot l = .refused (.imageTooLong l.image.length)

/-- The reset state meets the invariant, and has SP at 0xF4 and an empty image's memory (R44; the zeros of log entries 2
and 3 are the model's). -/
def Obligations.ResetMeetsInvariant : Prop :=
  Inv State.reset ∧ State.reset.sp = 0xF4 ∧ boot Launch.bare = .next State.reset

/-- Every step keeps the invariant: memory in its canonical form inside 0..255, `pc` in 0..256 (R31, R89), nothing latched
between instructions (R42), no abort kept as a state (R160), and launch parameters as the spec describes them (R8). -/
def Obligations.StepKeepsInvariant : Prop :=
  ∀ s t : State, Inv s → step s = .next t → Inv t

/-- From every state of the invariant, a run of any length that answers a state answers one of the invariant, with the
launch parameters it began with and with both traces only extended (R8, R31, R39). -/
def Obligations.RunsKeepInvariantAndExtendTraces : Prop :=
  ∀ (k : Nat) (s t : State), Inv s → Host.Core.run Sys2Proof.core k s = .next t →
    Inv t ∧ t.params = s.params ∧ s.out <+: t.out ∧ s.dg <+: t.dg

/-! ## The map as a parameter -/

/-- Under every OPCODE_MAP that agrees with the spec an instruction's encoding is `1 + n(ir)` bytes long, 1 in format Z,
2 in R and 3 in RI and RR, but for NOT, whose length is the map's (R61, R62, R64; D28, log entry 1); the default map
agrees, and gives NOT 2 bytes. -/
def Obligations.LengthsUnderEveryMap : Prop :=
  (∀ (om : OpcodeMap) (i : Instr), om.wf →
    (encode om i).length = 1 + operandCount (om.byte i.mnemonic) ∧ (encode om i).length ≤ 3 ∧
    (i.mnemonic ≠ .NOT → (encode om i).length = 1 + i.operandBytes.length) ∧
    (i.mnemonic = .NOT → (encode om i).length = 2 ∨ (encode om i).length = 3)) ∧
  OPCODE_MAP.wf ∧ ∀ a, encode OPCODE_MAP (.not a) = [0x69, a]

/-- Under every OPCODE_MAP that agrees with the spec, a running machine with the encoding of an instruction at its `pc`
runs that instruction, with every operand at every byte value and every byte after it (R67, R77, R78; that the map is
an argument is D2's). -/
def Obligations.EncodedInstructionRuns : Prop :=
  ∀ (s : State) (i : Instr), s.params.opcodeMap.wf → s.run = .running → s.pc ≤ 253 →
    (∀ k, (h : k < (encode s.params.opcodeMap i).length) →
      Memory.read s.mem (s.pc + k) = (encode s.params.opcodeMap i)[k]) →
    step s = retireResult (exec i (latched s))

/-- The bytes of OPCODE_MAP matter to execution only through the instruction's own operand count, and MOD's byte through its
diagnostic: an instruction run under two maps that count alike answers the same, the map aside (R62, R80, R85; D2). -/
def Obligations.OnlyOperandCountsOfTheMapMatter : Prop :=
  ∀ (i : Instr) (s : State) (om : OpcodeMap),
    (i.mnemonic = .MOD → om.byte .MOD = s.params.opcodeMap.byte .MOD) →
    operandCount (om.byte i.mnemonic) = operandCount (s.params.opcodeMap.byte i.mnemonic) →
    exec i (withMap om s) = mapNext (withMap om) (exec i s)
end

