-- ==== Sys2Proof/Laws/Memory.lean ====
section
/-! SUPPORT. Memory as data: a byte written is read back, every other byte stays, and every operation keeps the
canonical form, in which equal contents are equal lists. -/

namespace Sys2Proof.Machine

theorem Memory.read_without (m : Memory) (a b : Nat) :
    Memory.read (Memory.without m a) b = if b = a then Memory.unlisted else Memory.read m b := by
  induction m with
  | nil => simp [Memory.without, Memory.read]
  | cons c m ih =>
    simp only [Memory.without] at ih ⊢
    by_cases hc : c.1 = a
    · by_cases hb : b = a
      · simp_all
      · simp_all [Memory.read, Ne.symm hb]
    · by_cases hb : c.1 = b
      · simp_all [Memory.read]
      · simp_all [Memory.read]

/-- A put entry is what its address reads as, where no older entry stands. -/
theorem Memory.read_put (m : Memory) (a b : Nat) (v : Byte) (h : ∀ c ∈ m, c.1 ≠ a) :
    Memory.read (Memory.put m a v) b = if b = a then v else Memory.read m b := by
  induction m with
  | nil => simp [Memory.put, Memory.read, eq_comm]
  | cons c m ih =>
    have hc : c.1 ≠ a := h c (by simp)
    have ih := ih fun d hd => h d (by simp [hd])
    rw [Memory.put]
    split
    · simp [Memory.read, eq_comm]
    · rw [Memory.read, Memory.read, ih]
      by_cases hb : c.1 = b
      · rw [if_pos hb, if_neg (by omega), if_pos hb]
      · rw [if_neg hb, if_neg hb]

theorem Memory.without_keys (m : Memory) (a : Nat) : ∀ c ∈ Memory.without m a, c.1 ≠ a := by
  simp [Memory.without]

/-- Read after write (R47, R48). -/
theorem Memory.read_write (m : Memory) (a b : Nat) (v : Byte) :
    Memory.read (Memory.write m a v) b = if b = a then v else Memory.read m b := by
  unfold Memory.write
  split
  · next hv => rw [Memory.read_without, hv]
  · rw [Memory.read_put _ _ _ _ (Memory.without_keys m a), Memory.read_without]
    by_cases hb : b = a <;> simp [hb]

@[simp] theorem Memory.read_write_same (m : Memory) (a : Nat) (v : Byte) :
    Memory.read (Memory.write m a v) a = v := by simp [Memory.read_write]

theorem Memory.read_write_other (m : Memory) {a b : Nat} (v : Byte) (h : b ≠ a) :
    Memory.read (Memory.write m a v) b = Memory.read m b := by simp [Memory.read_write, h]

/-- Consecutive writes: each address reads its own byte, every other address what it read before. -/
theorem Memory.read_writeList (m : Memory) (a b : Nat) (vs : List Byte) :
    Memory.read (Memory.writeList m a vs) b =
      if h : a ≤ b ∧ b - a < vs.length then vs[b - a]'h.2 else Memory.read m b := by
  induction vs generalizing m a with
  | nil => simp [Memory.writeList]
  | cons v vs ih =>
    rw [Memory.writeList, ih, Memory.read_write]
    by_cases hab : b = a
    · subst hab; simp
    · by_cases hle : a + 1 ≤ b
      · obtain ⟨k, rfl⟩ : ∃ k, b = a + 1 + k := ⟨b - (a + 1), by omega⟩
        have h1 : a + 1 + k - (a + 1) = k := by omega
        have h2 : a + 1 + k - a = k + 1 := by omega
        simp only [h1, h2, List.length_cons, List.getElem_cons_succ, hab, if_false]
        by_cases hk : k < vs.length
        · rw [dif_pos ⟨by omega, hk⟩, dif_pos ⟨by omega, by omega⟩]
        · rw [dif_neg (by omega), dif_neg (by omega)]
      · rw [dif_neg (by omega), dif_neg (by omega), if_neg hab]

theorem Memory.wf_nil : Memory.wf [] := by simp [Memory.wf]

theorem Memory.wf_without {m : Memory} (a : Nat) (h : Memory.wf m) : Memory.wf (Memory.without m a) :=
  ⟨h.1.filter _, fun c hc => h.2 c (List.mem_filter.mp hc).1⟩

theorem Memory.mem_put {m : Memory} {a : Nat} {v : Byte} {c : Nat × Byte} (h : c ∈ Memory.put m a v) :
    c = (a, v) ∨ c ∈ m := by
  induction m with
  | nil => exact .inl (by simpa [Memory.put] using h)
  | cons d m ih =>
    rw [Memory.put] at h
    split at h
    · simpa using h
    · rcases List.mem_cons.mp h with rfl | h
      · simp
      · rcases ih h with h | h <;> simp [h]

theorem Memory.wf_put {m : Memory} {a : Nat} {v : Byte} (hk : ∀ c ∈ m, c.1 ≠ a) (ha : a < Config.MEM_SIZE)
    (hv : v ≠ Memory.unlisted) (h : Memory.wf m) : Memory.wf (Memory.put m a v) := by
  refine ⟨?_, fun c hc => ?_⟩
  · induction m with
    | nil => simp [Memory.put]
    | cons d m ih =>
      obtain ⟨hp, hb⟩ := h
      obtain ⟨hd, hm⟩ := List.pairwise_cons.mp hp
      rw [Memory.put]
      split
      · next hlt =>
        refine List.pairwise_cons.mpr ⟨fun c hc => ?_, hp⟩
        rcases List.mem_cons.mp hc with rfl | hc
        · exact hlt
        · exact Nat.lt_trans hlt (hd c hc)
      · next hge =>
        have hne : d.1 ≠ a := hk d (by simp)
        refine List.pairwise_cons.mpr ⟨fun c hc => ?_,
          ih (fun c hc => hk c (by simp [hc])) ⟨hm, fun c hc => hb c (by simp [hc])⟩⟩
        rcases Memory.mem_put hc with rfl | hc
        · exact Nat.lt_of_le_of_ne (Nat.le_of_not_lt hge) hne
        · exact hd c hc
  · rcases Memory.mem_put hc with rfl | hc
    · exact ⟨ha, hv⟩
    · exact h.2 c hc

/-- A write inside 0..255 keeps the canonical form. -/
theorem Memory.wf_write {m : Memory} {a : Nat} (v : Byte) (ha : a < Config.MEM_SIZE) (h : Memory.wf m) :
    Memory.wf (Memory.write m a v) := by
  unfold Memory.write
  split
  · exact Memory.wf_without a h
  · next hv => exact Memory.wf_put (Memory.without_keys m a) ha hv (Memory.wf_without a h)

/-- Consecutive writes that stay inside 0..255 keep the canonical form. -/
theorem Memory.wf_writeList {m : Memory} {a : Nat} (vs : List Byte) (ha : a + vs.length ≤ Config.MEM_SIZE)
    (h : Memory.wf m) : Memory.wf (Memory.writeList m a vs) := by
  induction vs generalizing m a with
  | nil => exact h
  | cons v vs ih =>
    simp only [List.length_cons] at ha
    exact ih (by omega) (Memory.wf_write v (by omega) h)

/-- An address below every entry reads as unlisted. -/
theorem Memory.read_below {m : Memory} {a : Nat} (h : ∀ c ∈ m, a < c.1) : Memory.read m a = Memory.unlisted := by
  induction m with
  | nil => rfl
  | cons c m ih =>
    have := h c (by simp)
    rw [Memory.read, if_neg (by omega), ih fun d hd => h d (by simp [hd])]

end Sys2Proof.Machine
end

