-- ==== Sys2Proof/Laws/Boot.lean ====
section
/-! SUPPORT. What boot answers, in the terms of IMAGE_BASE and MEM_SIZE (R7, R182). -/

namespace Sys2Proof.Machine

theorem boot_of_fits {l : Launch} (h : l.imageFits) : boot l = .next l.state := if_pos h

theorem boot_of_not_fits {l : Launch} (h : ¬ l.imageFits) : boot l = .refused (.imageTooLong l.image.length) := if_neg h

/-- Boot answers a state exactly for an image that fits, and then the launch's own. -/
theorem boot_eq_next_iff {l : Launch} {s : State} : boot l = .next s ↔ l.imageFits ∧ s = l.state := by
  unfold boot
  split <;> simp_all [eq_comm]

/-- The image is placed inside memory: the canonical form is kept. -/
theorem Launch.state_mem_wf {l : Launch} (h : l.imageFits) (hm : Memory.wf l.initMem) : Memory.wf l.state.mem :=
  Memory.wf_writeList _ h hm

end Sys2Proof.Machine
end

