-- ==== Sys2Proof/Laws/Decode.lean ====
section
/-! SUPPORT. An opcode map that agrees with the spec and its inverse: each known byte selects one operation, decode in
terms of it, the lengths of the formats, and the default map. -/

namespace Sys2Proof

theorem mem_all (m : Mnemonic) : m ∈ Mnemonic.all := by cases m <;> decide

/-- Such a map gives two operations two bytes, so decode is unambiguous (R67, R80). -/
theorem OpcodeMap.wf.injective {om : OpcodeMap} (hw : om.wf) {m n : Mnemonic} (h : om.byte m = om.byte n) : m = n :=
  List.inj_on_of_nodup_map hw.1 (mem_all m) (mem_all n) h

/-- The byte that selects an operation is the map's byte for it, under any map. -/
theorem byte_of_knownOp {om : OpcodeMap} {ir : Byte} {m : Mnemonic} (h : knownOp om ir = some m) : ir = om.byte m :=
  (beq_iff_eq.mp (List.find?_some (p := fun m => om.byte m == ir) h)).symm

/-- A byte is unknown or unnamed exactly when no operation has it. -/
theorem knownOp_eq_none {om : OpcodeMap} {ir : Byte} : knownOp om ir = none ↔ ∀ m, ir ≠ om.byte m := by
  simp only [knownOp, List.find?_eq_none, beq_iff_eq]
  exact ⟨fun h m hm => h m (mem_all m) hm.symm, fun h m _ hm => h m hm.symm⟩

/-- A byte of the map selects the operation that has it. -/
theorem knownOp_eq_some {om : OpcodeMap} (hw : om.wf) {ir : Byte} {m : Mnemonic} :
    knownOp om ir = some m ↔ ir = om.byte m := by
  refine ⟨byte_of_knownOp, fun h => ?_⟩
  match hk : knownOp om ir with
  | none => exact absurd h (knownOp_eq_none.mp hk m)
  | some n => rw [hw.injective ((byte_of_knownOp hk).symm.trans h)]

theorem knownOp_byte {om : OpcodeMap} (hw : om.wf) (m : Mnemonic) : knownOp om (om.byte m) = some m :=
  (knownOp_eq_some hw).mpr rfl

@[simp] theorem assemble_mnemonic (m : Mnemonic) (x y : Byte) : (assemble m x y).mnemonic = m := by cases m <;> rfl

/-- What a window decodes to is decided by its opcode byte alone (R72, R80). -/
theorem decode_eq (p : Params) (w : Window) :
    decode p w =
      match knownOp p.opcodeMap w.ir with
      | some m => .known (assemble m w.opA w.opB)
      | none => if w.ir ∈ p.unnamedOpcodes then .unnamed w.ir else .unknown w.ir := by
  unfold decode decodeOp
  cases knownOp p.opcodeMap w.ir with
  | some m => rfl
  | none => dsimp only; by_cases h : w.ir ∈ p.unnamedOpcodes <;> simp [h]

/-- A window that decodes to an instruction has the map's byte for its operation, under any map. -/
theorem byte_of_decode {p : Params} {w : Window} {i : Instr} (h : decode p w = .known i) :
    w.ir = p.opcodeMap.byte i.mnemonic ∧ i = assemble i.mnemonic w.opA w.opB := by
  rw [decode_eq] at h
  match hk : knownOp p.opcodeMap w.ir with
  | some m =>
    rw [hk] at h
    obtain rfl : assemble m w.opA w.opB = i := by simpa using h
    rw [assemble_mnemonic]
    exact ⟨byte_of_knownOp hk, rfl⟩
  | none => rw [hk] at h; dsimp only at h; split at h <;> simp at h

theorem decode_of_byte {p : Params} (hw : p.opcodeMap.wf) {w : Window} {m : Mnemonic} (h : w.ir = p.opcodeMap.byte m) :
    decode p w = .known (assemble m w.opA w.opB) := by
  rw [decode_eq, (knownOp_eq_some hw).mpr h]

/-! ### Lengths (R62, R64) -/

@[simp] theorem length_operandBytes (i : Instr) : i.operandBytes.length = i.mnemonic.operands := by cases i <;> rfl

/-- An operation's opcode counts the operands of its format, and NOT's may count one more (D28). -/
theorem OpcodeMap.wf.operandCount_eq {om : OpcodeMap} (hw : om.wf) (m : Mnemonic) :
    operandCount (om.byte m) = m.operands ∨ m = .NOT ∧ operandCount (om.byte m) = 2 := by
  rcases hw.2.2.2.2 m (mem_all m) with h | ⟨hm, h⟩ <;> simp only [Mnemonic.length] at h
  · left; omega
  · exact .inr ⟨hm, by simpa [Nat.add_comm 1] using h⟩

theorem OpcodeMap.wf.operandCount_of_ne_NOT {om : OpcodeMap} (hw : om.wf) {m : Mnemonic} (h : m ≠ .NOT) :
    operandCount (om.byte m) = m.operands := (hw.operandCount_eq m).resolve_right fun hm => h hm.1

theorem Mnemonic.operands_le (m : Mnemonic) : m.operands ≤ 2 := by cases m <;> decide

theorem OpcodeMap.wf.operands_le {om : OpcodeMap} (hw : om.wf) (m : Mnemonic) :
    m.operands ≤ operandCount (om.byte m) := by
  rcases hw.operandCount_eq m with h | ⟨-, h⟩ <;> have := m.operands_le <;> omega

theorem OpcodeMap.wf.operandCount_le {om : OpcodeMap} (hw : om.wf) (m : Mnemonic) : operandCount (om.byte m) ≤ 2 := by
  rcases hw.operandCount_eq m with h | ⟨-, h⟩ <;> have := m.operands_le <;> omega

theorem OpcodeMap.wf.length_of_ne_NOT {om : OpcodeMap} (hw : om.wf) {m : Mnemonic} (h : m ≠ .NOT) :
    m.length om = 1 + m.operands := by rw [Mnemonic.length, hw.operandCount_of_ne_NOT h]

/-- No instruction is longer than MAX_INSN_LEN (R61). -/
theorem OpcodeMap.wf.length_le {om : OpcodeMap} (hw : om.wf) (m : Mnemonic) : m.length om ≤ 3 := by
  have := hw.operandCount_le m
  rw [Mnemonic.length]; omega

/-- An encoding is as long as its opcode byte says (R62). -/
theorem length_encode {om : OpcodeMap} (hw : om.wf) (i : Instr) :
    (encode om i).length = 1 + operandCount (om.byte i.mnemonic) := by
  have := hw.operands_le i.mnemonic
  simp [encode]; omega

/-- An encoding is the opcode byte and the operands, where the opcode counts no more than they are. -/
theorem encode_eq {om : OpcodeMap} {i : Instr} (h : operandCount (om.byte i.mnemonic) = i.mnemonic.operands) :
    encode om i = om.byte i.mnemonic :: i.operandBytes := by
  simp [encode, h]

/-! ### The default map (R67, R68) -/

theorem OPCODE_MAP_wf : OPCODE_MAP.wf := by decide

theorem Params.defaults_wf : Params.wf Params.defaults := by decide

end Sys2Proof
end

