-- ==== Sys2Proof/Laws/State.lean ====
section
/-! SUPPORT. One lemma per field per named update of State, each true by rfl, so that no proof unfolds a record
update.  The register views reg? and sp follow the field regs. -/

namespace Sys2Proof.Machine

/-! ### State.setReg -/

@[simp] theorem State.setReg_regs (s : State) (i v : Byte) : (s.setReg i v).regs = s.regs.setIfInBounds i.toNat v := rfl
@[simp] theorem State.setReg_pc (s : State) (i v : Byte) : (s.setReg i v).pc = s.pc := rfl
@[simp] theorem State.setReg_fl (s : State) (i v : Byte) : (s.setReg i v).fl = s.fl := rfl
@[simp] theorem State.setReg_mem (s : State) (i v : Byte) : (s.setReg i v).mem = s.mem := rfl
@[simp] theorem State.setReg_run (s : State) (i v : Byte) : (s.setReg i v).run = s.run := rfl
@[simp] theorem State.setReg_out (s : State) (i v : Byte) : (s.setReg i v).out = s.out := rfl
@[simp] theorem State.setReg_dg (s : State) (i v : Byte) : (s.setReg i v).dg = s.dg := rfl
@[simp] theorem State.setReg_latch (s : State) (i v : Byte) : (s.setReg i v).latch = s.latch := rfl
@[simp] theorem State.setReg_params (s : State) (i v : Byte) : (s.setReg i v).params = s.params := rfl
@[simp] theorem State.setReg_draws (s : State) (i v : Byte) : (s.setReg i v).draws = s.draws := rfl

/-! ### State.setByte -/

@[simp] theorem State.setByte_regs (s : State) (a : Nat) (v : Byte) : (s.setByte a v).regs = s.regs := rfl
@[simp] theorem State.setByte_pc (s : State) (a : Nat) (v : Byte) : (s.setByte a v).pc = s.pc := rfl
@[simp] theorem State.setByte_fl (s : State) (a : Nat) (v : Byte) : (s.setByte a v).fl = s.fl := rfl
@[simp] theorem State.setByte_mem (s : State) (a : Nat) (v : Byte) : (s.setByte a v).mem = Memory.write s.mem a v := rfl
@[simp] theorem State.setByte_run (s : State) (a : Nat) (v : Byte) : (s.setByte a v).run = s.run := rfl
@[simp] theorem State.setByte_out (s : State) (a : Nat) (v : Byte) : (s.setByte a v).out = s.out := rfl
@[simp] theorem State.setByte_dg (s : State) (a : Nat) (v : Byte) : (s.setByte a v).dg = s.dg := rfl
@[simp] theorem State.setByte_latch (s : State) (a : Nat) (v : Byte) : (s.setByte a v).latch = s.latch := rfl
@[simp] theorem State.setByte_params (s : State) (a : Nat) (v : Byte) : (s.setByte a v).params = s.params := rfl
@[simp] theorem State.setByte_draws (s : State) (a : Nat) (v : Byte) : (s.setByte a v).draws = s.draws := rfl
@[simp] theorem State.setByte_reg? (s : State) (a : Nat) (v : Byte) (i : Byte) : (s.setByte a v).reg? i = s.reg? i := rfl
@[simp] theorem State.setByte_sp (s : State) (a : Nat) (v : Byte) : (s.setByte a v).sp = s.sp := rfl

/-! ### State.setSp -/

@[simp] theorem State.setSp_regs (s : State) (v : Byte) : (s.setSp v).regs = s.regs.set Config.SP_INDEX v := rfl
@[simp] theorem State.setSp_pc (s : State) (v : Byte) : (s.setSp v).pc = s.pc := rfl
@[simp] theorem State.setSp_fl (s : State) (v : Byte) : (s.setSp v).fl = s.fl := rfl
@[simp] theorem State.setSp_mem (s : State) (v : Byte) : (s.setSp v).mem = s.mem := rfl
@[simp] theorem State.setSp_run (s : State) (v : Byte) : (s.setSp v).run = s.run := rfl
@[simp] theorem State.setSp_out (s : State) (v : Byte) : (s.setSp v).out = s.out := rfl
@[simp] theorem State.setSp_dg (s : State) (v : Byte) : (s.setSp v).dg = s.dg := rfl
@[simp] theorem State.setSp_latch (s : State) (v : Byte) : (s.setSp v).latch = s.latch := rfl
@[simp] theorem State.setSp_params (s : State) (v : Byte) : (s.setSp v).params = s.params := rfl
@[simp] theorem State.setSp_draws (s : State) (v : Byte) : (s.setSp v).draws = s.draws := rfl

/-! ### decSp -/

@[simp] theorem decSp_regs (s : State) : (decSp s).regs = s.regs.set Config.SP_INDEX (s.sp - 1) := rfl
@[simp] theorem decSp_pc (s : State) : (decSp s).pc = s.pc := rfl
@[simp] theorem decSp_fl (s : State) : (decSp s).fl = s.fl := rfl
@[simp] theorem decSp_mem (s : State) : (decSp s).mem = s.mem := rfl
@[simp] theorem decSp_run (s : State) : (decSp s).run = s.run := rfl
@[simp] theorem decSp_out (s : State) : (decSp s).out = s.out := rfl
@[simp] theorem decSp_dg (s : State) : (decSp s).dg = s.dg := rfl
@[simp] theorem decSp_latch (s : State) : (decSp s).latch = s.latch := rfl
@[simp] theorem decSp_params (s : State) : (decSp s).params = s.params := rfl
@[simp] theorem decSp_draws (s : State) : (decSp s).draws = s.draws := rfl

/-! ### incSp -/

@[simp] theorem incSp_regs (s : State) : (incSp s).regs = s.regs.set Config.SP_INDEX (s.sp + 1) := rfl
@[simp] theorem incSp_pc (s : State) : (incSp s).pc = s.pc := rfl
@[simp] theorem incSp_fl (s : State) : (incSp s).fl = s.fl := rfl
@[simp] theorem incSp_mem (s : State) : (incSp s).mem = s.mem := rfl
@[simp] theorem incSp_run (s : State) : (incSp s).run = s.run := rfl
@[simp] theorem incSp_out (s : State) : (incSp s).out = s.out := rfl
@[simp] theorem incSp_dg (s : State) : (incSp s).dg = s.dg := rfl
@[simp] theorem incSp_latch (s : State) : (incSp s).latch = s.latch := rfl
@[simp] theorem incSp_params (s : State) : (incSp s).params = s.params := rfl
@[simp] theorem incSp_draws (s : State) : (incSp s).draws = s.draws := rfl

/-! ### emit -/

@[simp] theorem emit_regs (v : Byte) (s : State) : (emit v s).regs = s.regs := rfl
@[simp] theorem emit_pc (v : Byte) (s : State) : (emit v s).pc = s.pc := rfl
@[simp] theorem emit_fl (v : Byte) (s : State) : (emit v s).fl = s.fl := rfl
@[simp] theorem emit_mem (v : Byte) (s : State) : (emit v s).mem = s.mem := rfl
@[simp] theorem emit_run (v : Byte) (s : State) : (emit v s).run = s.run := rfl
@[simp] theorem emit_out (v : Byte) (s : State) : (emit v s).out = s.out ++ [v] := rfl
@[simp] theorem emit_dg (v : Byte) (s : State) : (emit v s).dg = s.dg := rfl
@[simp] theorem emit_latch (v : Byte) (s : State) : (emit v s).latch = s.latch := rfl
@[simp] theorem emit_params (v : Byte) (s : State) : (emit v s).params = s.params := rfl
@[simp] theorem emit_draws (v : Byte) (s : State) : (emit v s).draws = s.draws := rfl
@[simp] theorem emit_reg? (v : Byte) (s : State) (i : Byte) : (emit v s).reg? i = s.reg? i := rfl
@[simp] theorem emit_sp (v : Byte) (s : State) : (emit v s).sp = s.sp := rfl

/-! ### diag -/

@[simp] theorem diag_regs (d : Diag) (s : State) : (diag d s).regs = s.regs := rfl
@[simp] theorem diag_pc (d : Diag) (s : State) : (diag d s).pc = s.pc := rfl
@[simp] theorem diag_fl (d : Diag) (s : State) : (diag d s).fl = s.fl := rfl
@[simp] theorem diag_mem (d : Diag) (s : State) : (diag d s).mem = s.mem := rfl
@[simp] theorem diag_run (d : Diag) (s : State) : (diag d s).run = s.run := rfl
@[simp] theorem diag_out (d : Diag) (s : State) : (diag d s).out = s.out := rfl
@[simp] theorem diag_dg (d : Diag) (s : State) : (diag d s).dg = s.dg ++ [d] := rfl
@[simp] theorem diag_latch (d : Diag) (s : State) : (diag d s).latch = s.latch := rfl
@[simp] theorem diag_params (d : Diag) (s : State) : (diag d s).params = s.params := rfl
@[simp] theorem diag_draws (d : Diag) (s : State) : (diag d s).draws = s.draws := rfl
@[simp] theorem diag_reg? (d : Diag) (s : State) (i : Byte) : (diag d s).reg? i = s.reg? i := rfl
@[simp] theorem diag_sp (d : Diag) (s : State) : (diag d s).sp = s.sp := rfl

/-! ### halt -/

@[simp] theorem halt_regs (r : HaltReason) (s : State) : (halt r s).regs = s.regs := rfl
@[simp] theorem halt_pc (r : HaltReason) (s : State) : (halt r s).pc = s.pc := rfl
@[simp] theorem halt_fl (r : HaltReason) (s : State) : (halt r s).fl = s.fl := rfl
@[simp] theorem halt_mem (r : HaltReason) (s : State) : (halt r s).mem = s.mem := rfl
@[simp] theorem halt_run (r : HaltReason) (s : State) : (halt r s).run = .halted r := rfl
@[simp] theorem halt_out (r : HaltReason) (s : State) : (halt r s).out = s.out := rfl
@[simp] theorem halt_dg (r : HaltReason) (s : State) : (halt r s).dg = s.dg := rfl
@[simp] theorem halt_latch (r : HaltReason) (s : State) : (halt r s).latch = s.latch := rfl
@[simp] theorem halt_params (r : HaltReason) (s : State) : (halt r s).params = s.params := rfl
@[simp] theorem halt_draws (r : HaltReason) (s : State) : (halt r s).draws = s.draws := rfl
@[simp] theorem halt_reg? (r : HaltReason) (s : State) (i : Byte) : (halt r s).reg? i = s.reg? i := rfl
@[simp] theorem halt_sp (r : HaltReason) (s : State) : (halt r s).sp = s.sp := rfl

/-! ### advance -/

@[simp] theorem advance_regs (m : Mnemonic) (s : State) : (advance m s).regs = s.regs := rfl
@[simp] theorem advance_pc (m : Mnemonic) (s : State) : (advance m s).pc = s.pc + m.length s.params.opcodeMap := rfl
@[simp] theorem advance_fl (m : Mnemonic) (s : State) : (advance m s).fl = s.fl := rfl
@[simp] theorem advance_mem (m : Mnemonic) (s : State) : (advance m s).mem = s.mem := rfl
@[simp] theorem advance_run (m : Mnemonic) (s : State) : (advance m s).run = s.run := rfl
@[simp] theorem advance_out (m : Mnemonic) (s : State) : (advance m s).out = s.out := rfl
@[simp] theorem advance_dg (m : Mnemonic) (s : State) : (advance m s).dg = s.dg := rfl
@[simp] theorem advance_latch (m : Mnemonic) (s : State) : (advance m s).latch = s.latch := rfl
@[simp] theorem advance_params (m : Mnemonic) (s : State) : (advance m s).params = s.params := rfl
@[simp] theorem advance_draws (m : Mnemonic) (s : State) : (advance m s).draws = s.draws := rfl
@[simp] theorem advance_reg? (m : Mnemonic) (s : State) (i : Byte) : (advance m s).reg? i = s.reg? i := rfl
@[simp] theorem advance_sp (m : Mnemonic) (s : State) : (advance m s).sp = s.sp := rfl

/-! ### loadPc -/

@[simp] theorem loadPc_regs (t : Byte) (s : State) : (loadPc t s).regs = s.regs := rfl
@[simp] theorem loadPc_pc (t : Byte) (s : State) : (loadPc t s).pc = t.toNat := rfl
@[simp] theorem loadPc_fl (t : Byte) (s : State) : (loadPc t s).fl = s.fl := rfl
@[simp] theorem loadPc_mem (t : Byte) (s : State) : (loadPc t s).mem = s.mem := rfl
@[simp] theorem loadPc_run (t : Byte) (s : State) : (loadPc t s).run = s.run := rfl
@[simp] theorem loadPc_out (t : Byte) (s : State) : (loadPc t s).out = s.out := rfl
@[simp] theorem loadPc_dg (t : Byte) (s : State) : (loadPc t s).dg = s.dg := rfl
@[simp] theorem loadPc_latch (t : Byte) (s : State) : (loadPc t s).latch = s.latch := rfl
@[simp] theorem loadPc_params (t : Byte) (s : State) : (loadPc t s).params = s.params := rfl
@[simp] theorem loadPc_draws (t : Byte) (s : State) : (loadPc t s).draws = s.draws := rfl
@[simp] theorem loadPc_reg? (t : Byte) (s : State) (i : Byte) : (loadPc t s).reg? i = s.reg? i := rfl
@[simp] theorem loadPc_sp (t : Byte) (s : State) : (loadPc t s).sp = s.sp := rfl

/-! ### writeFl -/

@[simp] theorem writeFl_regs (v : Byte) (s : State) : (writeFl v s).regs = s.regs := rfl
@[simp] theorem writeFl_pc (v : Byte) (s : State) : (writeFl v s).pc = s.pc := rfl
@[simp] theorem writeFl_fl (v : Byte) (s : State) : (writeFl v s).fl = v := rfl
@[simp] theorem writeFl_mem (v : Byte) (s : State) : (writeFl v s).mem = s.mem := rfl
@[simp] theorem writeFl_run (v : Byte) (s : State) : (writeFl v s).run = s.run := rfl
@[simp] theorem writeFl_out (v : Byte) (s : State) : (writeFl v s).out = s.out := rfl
@[simp] theorem writeFl_dg (v : Byte) (s : State) : (writeFl v s).dg = s.dg := rfl
@[simp] theorem writeFl_latch (v : Byte) (s : State) : (writeFl v s).latch = s.latch := rfl
@[simp] theorem writeFl_params (v : Byte) (s : State) : (writeFl v s).params = s.params := rfl
@[simp] theorem writeFl_draws (v : Byte) (s : State) : (writeFl v s).draws = s.draws := rfl
@[simp] theorem writeFl_reg? (v : Byte) (s : State) (i : Byte) : (writeFl v s).reg? i = s.reg? i := rfl
@[simp] theorem writeFl_sp (v : Byte) (s : State) : (writeFl v s).sp = s.sp := rfl

/-! ### haltModZero -/

@[simp] theorem haltModZero_regs (s : State) : (haltModZero s).regs = s.regs := rfl
@[simp] theorem haltModZero_pc (s : State) : (haltModZero s).pc = modZeroPc s := rfl
@[simp] theorem haltModZero_fl (s : State) : (haltModZero s).fl = s.fl := rfl
@[simp] theorem haltModZero_mem (s : State) : (haltModZero s).mem = s.mem := rfl
@[simp] theorem haltModZero_run (s : State) : (haltModZero s).run = .halted .modZero := rfl
@[simp] theorem haltModZero_out (s : State) : (haltModZero s).out = s.out := rfl
@[simp] theorem haltModZero_dg (s : State) : (haltModZero s).dg = s.dg ++ [.modByZero (s.params.opcodeMap.byte .MOD) s.pc] := rfl
@[simp] theorem haltModZero_latch (s : State) : (haltModZero s).latch = s.latch := rfl
@[simp] theorem haltModZero_params (s : State) : (haltModZero s).params = s.params := rfl
@[simp] theorem haltModZero_draws (s : State) : (haltModZero s).draws = s.draws + 1 := rfl
@[simp] theorem haltModZero_reg? (s : State) (i : Byte) : (haltModZero s).reg? i = s.reg? i := rfl
@[simp] theorem haltModZero_sp (s : State) : (haltModZero s).sp = s.sp := rfl

/-! ### retire -/

@[simp] theorem retire_regs (s : State) : (retire s).regs = s.regs := rfl
@[simp] theorem retire_pc (s : State) : (retire s).pc = s.pc := rfl
@[simp] theorem retire_fl (s : State) : (retire s).fl = s.fl := rfl
@[simp] theorem retire_mem (s : State) : (retire s).mem = s.mem := rfl
@[simp] theorem retire_run (s : State) : (retire s).run = s.run := rfl
@[simp] theorem retire_out (s : State) : (retire s).out = s.out := rfl
@[simp] theorem retire_dg (s : State) : (retire s).dg = s.dg := rfl
@[simp] theorem retire_latch (s : State) : (retire s).latch = Latch.empty := rfl
@[simp] theorem retire_params (s : State) : (retire s).params = s.params := rfl
@[simp] theorem retire_draws (s : State) : (retire s).draws = s.draws := rfl
@[simp] theorem retire_reg? (s : State) (i : Byte) : (retire s).reg? i = s.reg? i := rfl
@[simp] theorem retire_sp (s : State) : (retire s).sp = s.sp := rfl

/-! ### skipUnknown -/

@[simp] theorem skipUnknown_regs (ir : Byte) (s : State) : (skipUnknown ir s).regs = s.regs := rfl
@[simp] theorem skipUnknown_pc (ir : Byte) (s : State) : (skipUnknown ir s).pc = s.pc + 1 := rfl
@[simp] theorem skipUnknown_fl (ir : Byte) (s : State) : (skipUnknown ir s).fl = s.fl := rfl
@[simp] theorem skipUnknown_mem (ir : Byte) (s : State) : (skipUnknown ir s).mem = s.mem := rfl
@[simp] theorem skipUnknown_run (ir : Byte) (s : State) : (skipUnknown ir s).run = s.run := rfl
@[simp] theorem skipUnknown_out (ir : Byte) (s : State) : (skipUnknown ir s).out = s.out := rfl
@[simp] theorem skipUnknown_dg (ir : Byte) (s : State) : (skipUnknown ir s).dg = s.dg ++ [.unknownOpcode ir s.pc] := rfl
@[simp] theorem skipUnknown_latch (ir : Byte) (s : State) : (skipUnknown ir s).latch = s.latch := rfl
@[simp] theorem skipUnknown_params (ir : Byte) (s : State) : (skipUnknown ir s).params = s.params := rfl
@[simp] theorem skipUnknown_draws (ir : Byte) (s : State) : (skipUnknown ir s).draws = s.draws := rfl
@[simp] theorem skipUnknown_reg? (ir : Byte) (s : State) (i : Byte) : (skipUnknown ir s).reg? i = s.reg? i := rfl
@[simp] theorem skipUnknown_sp (ir : Byte) (s : State) : (skipUnknown ir s).sp = s.sp := rfl

/-! ### Outcomes -/

@[simp] theorem finish_ok (s : State) : finish (.ok s) = .next s := rfl
@[simp] theorem finish_error (f : Fault) : finish (.error f) = .fault f := rfl
@[simp] theorem retireResult_next (s : State) : retireResult (.next s) = .next (retire s) := rfl
@[simp] theorem retireResult_fault (f : Fault) : retireResult (.fault f) = .fault f := rfl
@[simp] theorem retireResult_refused (r : Refusal) : retireResult (.refused r) = .refused r := rfl

/-- An answer `next t` comes from statements that raised nothing. -/
theorem finish_eq_next {e : Except Fault State} {t : State} : finish e = .next t ↔ e = .ok t := by
  cases e <;> simp [finish]

/-- An answer `fault f` comes from statements that raised `f`. -/
theorem finish_eq_fault {e : Except Fault State} {f : Fault} : finish e = .fault f ↔ e = .error f := by
  cases e <;> simp [finish]

/-- The statements of an instruction are never refused. -/
theorem finish_ne_refused (e : Except Fault State) (r : Refusal) : finish e ≠ .refused r := by
  cases e <;> simp [finish]

@[simp] theorem ok_bind {α β : Type} (a : α) (k : α → Except Fault β) : (Except.ok a >>= k) = k a := rfl
@[simp] theorem error_bind {α β : Type} (f : Fault) (k : α → Except Fault β) :
    (Except.error f >>= k) = .error f := rfl

/-- A statement sequence that raised nothing: the first statement gave a value and the rest ran on it. -/
theorem bind_eq_ok {α β : Type} {x : Except Fault α} {k : α → Except Fault β} {b : β} :
    (x >>= k) = .ok b ↔ ∃ a, x = .ok a ∧ k a = .ok b := by
  cases x <;> simp

/-- A statement sequence that raised `f`: the first statement did, or the rest. -/
theorem bind_eq_error {α β : Type} {x : Except Fault α} {k : α → Except Fault β} {f : Fault} :
    (x >>= k) = .error f ↔ x = .error f ∨ ∃ a, x = .ok a ∧ k a = .error f := by
  cases x <;> simp

end Sys2Proof.Machine
end

