-- ==== Sys2Proof/Laws/Registers.lean ====
section
/-! SUPPORT. The register file through its index bytes: which bytes name a register, what a read and a write
answer, and how a change of one register is seen through every index. -/

namespace Sys2Proof.Machine

/-- An index byte names a register exactly when it is 0 to 7 (R27). -/
theorem reg?_isSome (s : State) (i : Byte) : (s.reg? i).isSome ↔ validReg i := by
  simp [State.reg?]

theorem reg?_of_valid (s : State) {i : Byte} (h : validReg i) : ∃ v, s.reg? i = some v :=
  Option.isSome_iff_exists.mp ((reg?_isSome s i).mpr h)

theorem valid_of_reg? {s : State} {i v : Byte} (h : s.reg? i = some v) : validReg i :=
  (reg?_isSome s i).mp (by simp [h])

theorem reg?_of_invalid (s : State) {i : Byte} (h : ¬ validReg i) : s.reg? i = none := by
  simpa [State.reg?] using h

theorem readReg_of_some {s : State} {i v : Byte} (h : s.reg? i = some v) : readReg s i = .ok v := by
  simp [readReg, h]

theorem readReg_of_invalid (s : State) {i : Byte} (h : ¬ validReg i) :
    readReg s i = .error (.invalidRegister i s.context) := by
  simp [readReg, reg?_of_invalid s h]

theorem readReg_eq_ok {s : State} {i v : Byte} : readReg s i = .ok v ↔ s.reg? i = some v := by
  unfold readReg; cases s.reg? i <;> simp

/-- A register read raises only InvalidRegister, with the offending index (R162). -/
theorem readReg_eq_error {s : State} {i : Byte} {f : Fault} :
    readReg s i = .error f ↔ ¬ validReg i ∧ f = .invalidRegister i s.context := by
  by_cases h : validReg i
  · obtain ⟨v, hv⟩ := reg?_of_valid s h
    simp [readReg_of_some hv, h]
  · simp [readReg_of_invalid s h, h, eq_comm]

theorem writeReg_of_valid (s : State) {i : Byte} (v : Byte) (h : validReg i) :
    writeReg s i v = .ok (s.setReg i v) := if_pos h

theorem writeReg_of_invalid (s : State) {i : Byte} (v : Byte) (h : ¬ validReg i) :
    writeReg s i v = .error (.invalidRegister i s.context) := if_neg h

theorem writeReg_eq_ok {s t : State} {i v : Byte} :
    writeReg s i v = .ok t ↔ validReg i ∧ t = (s.setReg i v) := by
  by_cases h : validReg i
  · simp [writeReg_of_valid s v h, h, eq_comm]
  · simp [writeReg_of_invalid s v h, h]

/-- A register write raises only InvalidRegister, with the offending index (R162). -/
theorem writeReg_eq_error {s : State} {i v : Byte} {f : Fault} :
    writeReg s i v = .error f ↔ ¬ validReg i ∧ f = .invalidRegister i s.context := by
  by_cases h : validReg i
  · simp [writeReg_of_valid s v h, h]
  · simp [writeReg_of_invalid s v h, h, eq_comm]

/-- A register written, seen through any index. -/
theorem reg?_set (s : State) (i v r : Byte) (h : validReg i) :
    (s.setReg i v).reg? r = if r = i then some v else s.reg? r := by
  by_cases hr : r = i
  · subst hr; simp [State.reg?, Vector.getElem?_setIfInBounds]; exact h
  · have : ¬ i.toNat = r.toNat := fun e => hr (BitVec.eq_of_toNat_eq e.symm)
    simp [State.reg?, this, hr]

/-- SP is register 7 (R22). -/
theorem reg?_seven (s : State) : s.reg? 7#8 = some s.sp := by
  simp [State.reg?, State.sp]

/-- SP set, seen through any index. -/
theorem reg?_setSp (s : State) (v r : Byte) : (s.setSp v).reg? r = if r = 7#8 then some v else s.reg? r := by
  by_cases hr : r = 7#8
  · subst hr; simp [State.reg?, State.setSp]
  · have h7 : ¬ 7 = r.toNat := fun e => hr (BitVec.eq_of_toNat_eq (by simpa using e.symm))
    rw [if_neg hr, State.reg?, State.setSp, Vector.getElem?_set_ne (h := h7)]
    rfl

/-- A write of another register leaves SP (R22). -/
theorem sp_setReg_of_ne (s : State) {a : Byte} (v : Byte) (h : a ≠ 7#8) : (s.setReg a v).sp = s.sp := by
  have h7 : ¬ a.toNat = 7 := fun e => h (BitVec.eq_of_toNat_eq (by simpa using e))
  simp [State.sp, State.setReg, h7]

/-- A write of register 7 is a write of SP (R24). -/
@[simp] theorem sp_setReg_seven (s : State) (v : Byte) : (s.setReg 7#8 v).sp = v := by
  simp [State.sp, State.setReg]

@[simp] theorem sp_setSp (s : State) (v : Byte) : (s.setSp v).sp = v := by simp [State.setSp, State.sp]
@[simp] theorem sp_decSp (s : State) : (decSp s).sp = s.sp - 1 := sp_setSp s _
@[simp] theorem sp_incSp (s : State) : (incSp s).sp = s.sp + 1 := sp_setSp s _

theorem reg?_decSp (s : State) (r : Byte) :
    (decSp s).reg? r = if r = 7#8 then some (s.sp - 1) else s.reg? r := reg?_setSp s _ r

theorem reg?_incSp (s : State) (r : Byte) :
    (incSp s).reg? r = if r = 7#8 then some (s.sp + 1) else s.reg? r := reg?_setSp s _ r

/-- The decrement moves SP alone (R131). -/
theorem reg?_decSp_of_ne (s : State) {a : Byte} (h : a ≠ 7) : (decSp s).reg? a = s.reg? a :=
  (reg?_decSp s a).trans (if_neg h)

theorem reg?_decSp_seven (s : State) : (decSp s).reg? 7 = some (s.sp - 1) := reg?_decSp s 7

end Sys2Proof.Machine
end

