-- ==== Sys2Proof/Laws/Exec.lean ====
section
/-! SUPPORT. What each shared operation and each meaning answers, said once: the next state on the path that raises
nothing, and the fault on the others.  Later proofs cite these instead of unfolding a meaning. -/

namespace Sys2Proof.Machine

/-! ### Memory access and the recorded context -/

theorem memRead_of_lt (s : State) {a : Nat} (h : a < 256) : memRead s a = .ok (Memory.read s.mem a) := if_pos h

theorem memRead_of_ge (s : State) {a : Nat} (h : 256 ≤ a) : memRead s a = .error (.outOfBounds a s.context) :=
  if_neg (Nat.not_lt.mpr h)

theorem memWrite_of_lt (s : State) {a : Nat} (v : Byte) (h : a < 256) :
    memWrite s a v = .ok (s.setByte a v) := if_pos h

theorem memWrite_of_ge (s : State) {a : Nat} (v : Byte) (h : 256 ≤ a) :
    memWrite s a v = .error (.outOfBounds a s.context) := if_neg (Nat.not_lt.mpr h)

/-- A stack address is a byte, so PUSH, POP, CALL and RET raise no OutOfBounds (R138, R161). -/
theorem pushAddr_lt (s : State) : pushAddr s < 256 := (s.sp - 1).isLt
theorem popAddr_lt (s : State) : popAddr s < 256 := s.sp.isLt

@[simp] theorem context_decSp (s : State) : (decSp s).context = s.context := rfl
@[simp] theorem context_incSp (s : State) : (incSp s).context = s.context := rfl
@[simp] theorem context_setByte (s : State) (a : Nat) (v : Byte) : (s.setByte a v).context = s.context := rfl

theorem sp_decSp_toNat (s : State) : (decSp s).sp.toNat = pushAddr s := by rw [sp_decSp]; rfl

/-! ### Operand pairs -/

theorem readPair_of_some {s : State} {a b A B : Byte} (ha : s.reg? a = some A) (hb : s.reg? b = some B) :
    readPair s a b = .ok (A, B) := by
  simp [readPair, readReg_of_some ha, readReg_of_some hb, pure, Except.pure]

theorem readPair_of_invalid_left (s : State) {a b : Byte} (ha : ¬ validReg a) :
    readPair s a b = .error (.invalidRegister a s.context) := by
  simp [readPair, readReg_of_invalid s ha]

theorem readPair_of_invalid_right (s : State) {a b : Byte} (ha : validReg a) (hb : ¬ validReg b) :
    readPair s a b = .error (.invalidRegister b s.context) := by
  obtain ⟨A, hA⟩ := reg?_of_valid s ha
  simp [readPair, readReg_of_some hA, readReg_of_invalid s hb]

/-! ### The ALU -/

/-- `alu_8bit` performs exactly the ten ALU operations (R81, R100). -/
theorem alu_isSome (op : Mnemonic) (A B : Byte) : (alu op A B).isSome = op.isAlu := by cases op <;> rfl

/-- A register result: register `a` written, `pc` advanced. -/
theorem runAlu_result {op : Mnemonic} {a A B : Byte} {s : State} {v : Nat} (h : alu op A B = some (.result v))
    (ha : validReg a) :
    runAlu op a A B s = .ok (advance op (s.setReg a (BitVec.ofNat 8 v))) := by
  simp [runAlu, h, commitAlu, AluOut.result, writeResult, writeReg_of_valid s _ ha, writeFlags, pure, Except.pure]

/-- A flags result: FL written, `pc` advanced. -/
theorem runAlu_flags {op : Mnemonic} {a A B : Byte} {s : State} {v : Byte} (h : alu op A B = some (.flags v)) :
    runAlu op a A B s = .ok (advance op (writeFl v s)) := by
  simp [runAlu, h, commitAlu, AluOut.flags, writeResult, writeFlags, pure, Except.pure]

/-- A zero divisor: the machine halts. -/
theorem runAlu_zeroDivisor {op : Mnemonic} {a A B : Byte} {s : State} (h : alu op A B = some .zeroDivisor) :
    runAlu op a A B s = .ok (haltModZero s) := by
  simp [runAlu, h, commitAlu, AluOut.zeroDivisor]

theorem binaryAlu_of_some {op : Mnemonic} {a b A B : Byte} {s : State} (ha : s.reg? a = some A)
    (hb : s.reg? b = some B) : binaryAlu op a b s = finish (runAlu op a A B s) := by
  simp [binaryAlu, readPair_of_some ha hb]

theorem binaryAlu_of_invalid_left (op : Mnemonic) {a : Byte} (b : Byte) (s : State) (ha : ¬ validReg a) :
    binaryAlu op a b s = .fault (.invalidRegister a s.context) := by
  simp [binaryAlu, readPair_of_invalid_left s ha]

theorem binaryAlu_of_invalid_right (op : Mnemonic) {a b : Byte} (s : State) (ha : validReg a) (hb : ¬ validReg b) :
    binaryAlu op a b s = .fault (.invalidRegister b s.context) := by
  simp [binaryAlu, readPair_of_invalid_right s ha hb]

/-- A two-operand ALU instruction with a register result (R94, R95). -/
theorem binaryAlu_result {op : Mnemonic} {a b A B : Byte} {s : State} {v : Nat} (ha : s.reg? a = some A)
    (hb : s.reg? b = some B) (h : alu op A B = some (.result v)) :
    binaryAlu op a b s =
      .next (advance op (s.setReg a (BitVec.ofNat 8 v))) := by
  rw [binaryAlu_of_some ha hb, runAlu_result h (valid_of_reg? ha), finish_ok]

theorem execCmp_of_some {a b A B : Byte} {s : State} (ha : s.reg? a = some A) (hb : s.reg? b = some B) :
    execCmp a b s = .next (advance .CMP (writeFl (cmpFlags A B) s)) := by
  rw [execCmp, binaryAlu_of_some ha hb, runAlu_flags rfl, finish_ok]

theorem execMod_of_ne_zero {a b A B : Byte} {s : State} (ha : s.reg? a = some A) (hb : s.reg? b = some B)
    (h0 : B ≠ 0) :
    execMod a b s = .next (advance .MOD
      (s.setReg a (BitVec.ofNat 8 (A.toNat % B.toNat)))) :=
  binaryAlu_result ha hb (by simp only [alu, if_neg h0])

theorem execMod_of_zero {a b A : Byte} {s : State} (ha : s.reg? a = some A) (hb : s.reg? b = some 0) :
    execMod a b s = .next (haltModZero s) := by
  rw [execMod, binaryAlu_of_some ha hb, runAlu_zeroDivisor (by simp only [alu, if_true]), finish_ok]

theorem execNot_of_some {a A : Byte} {s : State} (ha : s.reg? a = some A) :
    execNot a s = .next (advance .NOT
      (s.setReg a (BitVec.ofNat 8 (255 - A.toNat)))) := by
  simp [execNot, unaryAlu, readReg_of_some ha, runAlu_result (op := .NOT) rfl (valid_of_reg? ha)]

theorem execNot_of_invalid {a : Byte} (s : State) (ha : ¬ validReg a) :
    execNot a s = .fault (.invalidRegister a s.context) := by
  simp [execNot, unaryAlu, readReg_of_invalid s ha]

/-! ### Load, output, stack -/

theorem execLdi_of_valid {a : Byte} (imm : Byte) (s : State) (ha : validReg a) :
    execLdi a imm s = .next (advance .LDI (s.setReg a imm)) := by
  simp [execLdi, writeReg_of_valid s _ ha, immediate, pure, Except.pure]

theorem execLdi_of_invalid {a : Byte} (imm : Byte) (s : State) (ha : ¬ validReg a) :
    execLdi a imm s = .fault (.invalidRegister a s.context) := by
  simp [execLdi, writeReg_of_invalid s _ ha]

theorem execPrn_of_some {a A : Byte} {s : State} (ha : s.reg? a = some A) :
    execPrn a s = .next (advance .PRN (emit A s)) := by
  simp [execPrn, readReg_of_some ha, pure, Except.pure]

theorem execPrn_of_invalid {a : Byte} (s : State) (ha : ¬ validReg a) :
    execPrn a s = .fault (.invalidRegister a s.context) := by
  simp [execPrn, readReg_of_invalid s ha]

/-- PUSH stores what register `a` holds AFTER the decrement (R131, R132). -/
theorem execPush_of_some {a v : Byte} {s : State} (ha : (decSp s).reg? a = some v) :
    execPush a s = .next (advance .PUSH ((decSp s).setByte (pushAddr s) v)) := by
  simp [execPush, readReg_of_some ha, -sp_decSp, sp_decSp_toNat, memWrite_of_lt _ _ (pushAddr_lt s), pure, Except.pure]

theorem execPush_of_invalid {a : Byte} (s : State) (ha : ¬ validReg a) :
    execPush a s = .fault (.invalidRegister a s.context) := by
  simp [execPush, readReg_of_invalid _ ha]

/-- POP writes register `a` BEFORE the increment (R135, R136). -/
theorem execPop_of_valid {a : Byte} (s : State) (ha : validReg a) :
    execPop a s = .next (advance .POP
      (incSp (s.setReg a (Memory.read s.mem (popAddr s))))) := by
  simp [execPop, memRead_of_lt _ (popAddr_lt s), writeReg_of_valid s _ ha, pure, Except.pure]

theorem execPop_of_invalid {a : Byte} (s : State) (ha : ¬ validReg a) :
    execPop a s = .fault (.invalidRegister a s.context) := by
  simp [execPop, memRead_of_lt _ (popAddr_lt s), writeReg_of_invalid s _ ha]

/-! ### Control flow -/

/-- CALL jumps to what register `a` holds AFTER the push (R141, R143). -/
theorem execCall_of_some {a t : Byte} {s : State} (ha : (decSp s).reg? a = some t) :
    execCall a s = .next (loadPc t
      ((decSp s).setByte (pushAddr s) (BitVec.ofNat 8 (s.pc + 2)))) := by
  have hr : ((decSp s).setByte (pushAddr s) (BitVec.ofNat 8 (s.pc + 2))).reg? a = some t := ha
  simp [execCall, -sp_decSp, sp_decSp_toNat, memWrite_of_lt _ _ (pushAddr_lt s), readReg_of_some hr, pure, Except.pure]

theorem execCall_of_invalid {a : Byte} (s : State) (ha : ¬ validReg a) :
    execCall a s = .fault (.invalidRegister a s.context) := by
  simp [execCall, -sp_decSp, sp_decSp_toNat, memWrite_of_lt _ _ (pushAddr_lt s), readReg_of_invalid _ ha]

theorem execRet_eq (s : State) : execRet s = .next (loadPc (Memory.read s.mem (popAddr s)) (incSp s)) := by
  simp [execRet, memRead_of_lt _ (popAddr_lt s), pure, Except.pure]

theorem execJmp_of_some {a A : Byte} {s : State} (ha : s.reg? a = some A) : execJmp a s = .next (loadPc A s) := by
  simp [execJmp, readReg_of_some ha, pure, Except.pure]

theorem execJmp_of_invalid {a : Byte} (s : State) (ha : ¬ validReg a) :
    execJmp a s = .fault (.invalidRegister a s.context) := by
  simp [execJmp, readReg_of_invalid s ha]

theorem branch_taken_of_some (op : Mnemonic) {a A : Byte} {s : State} (ha : s.reg? a = some A) :
    branch op true a s = .ok (loadPc A s) := by
  simp [branch, readReg_of_some ha, pure, Except.pure]

theorem branch_taken_of_invalid (op : Mnemonic) {a : Byte} (s : State) (ha : ¬ validReg a) :
    branch op true a s = .error (.invalidRegister a s.context) := by
  simp [branch, readReg_of_invalid s ha]

/-- Not taken, the operand is not checked, or names a register: `pc` advances (R85, R153). -/
theorem branch_untaken (op : Mnemonic) {a : Byte} {s : State} (h : s.params.branchChecksUntaken = true → validReg a) :
    branch op false a s = .ok (advance op s) := by
  cases hc : s.params.branchChecksUntaken with
  | false => simp [branch, hc, pure, Except.pure]
  | true =>
    obtain ⟨A, hA⟩ := reg?_of_valid s (h hc)
    simp [branch, hc, readReg_of_some hA, pure, Except.pure]

theorem branch_untaken_of_invalid (op : Mnemonic) {a : Byte} {s : State} (hc : s.params.branchChecksUntaken = true)
    (ha : ¬ validReg a) : branch op false a s = .error (.invalidRegister a s.context) := by
  simp [branch, hc, readReg_of_invalid s ha]

/-- The zero-divisor halt leaves `pc` at one of the two values of R87. -/
theorem modZeroPc_cases (s : State) : modZeroPc s = s.pc ∨ modZeroPc s = s.pc + 3 := by
  unfold modZeroPc; split <;> simp

/-! ### The cycle -/

/-- A read of the fetch that is in range latches its byte and goes on. -/
theorem readWindow_of_lt {s : State} (n : Nat) (bs : List Byte) (h : s.pc + bs.length < 256) :
    readWindow (n + 1) bs s =
      readWindow n (bs ++ [Memory.read s.mem (s.pc + bs.length)])
        { s with latch := Latch.ofBytes (bs ++ [Memory.read s.mem (s.pc + bs.length)]) } := by
  simp [readWindow, memRead_of_lt s h]

/-- A read of the fetch that is out of range aborts with what is latched (R79, R163). -/
theorem readWindow_of_ge {s : State} (n : Nat) (bs : List Byte) (h : 256 ≤ s.pc + bs.length) :
    readWindow (n + 1) bs s = .error (.outOfBounds (s.pc + bs.length) s.context) := by
  simp [readWindow, memRead_of_ge s h]

/-- A fetch is the three reads of its window, from empty latches. -/
theorem fetch_eq (s : State) :
    fetch s = (readWindow 3 [] { s with latch := Latch.empty }).map fun r => (Window.ofBytes r.1, r.2) := by
  unfold fetch
  cases readWindow Config.FETCH_WINDOW [] { s with latch := Latch.empty } <;> rfl

/-- A fetch inside the range latches and answers the three bytes at `pc` (R78). -/
theorem fetch_of_le {s : State} (h : s.pc ≤ 253) : fetch s = .ok (windowAt s, latched s) := by
  rw [fetch_eq, readWindow_of_lt, readWindow_of_lt, readWindow_of_lt]
  · rfl
  all_goals simp; omega

/-- What a running machine does once its fetch is in range: the dispatch of what it fetched. -/
theorem runCycle_of_le {s : State} (h : s.pc ≤ 253) :
    runCycle s = retireResult (dispatch (fetchedOp s) (latched s)) := by
  simp [runCycle, fetch_of_le h, fetchedOp]

/-- At 254 the third read aborts, with two bytes latched (R79, R163). -/
theorem fetch_of_eq_254 {s : State} (h : s.pc = 254) :
    fetch s = .error (.outOfBounds 256
      { pc := 254, latch := Latch.ofBytes [Memory.read s.mem 254, Memory.read s.mem 255] }) := by
  rw [fetch_eq, readWindow_of_lt, readWindow_of_lt, readWindow_of_ge]
  · simp [State.context, h, Except.map]
  all_goals simp [h]

/-- At 255 the second read aborts, with one byte latched. -/
theorem fetch_of_eq_255 {s : State} (h : s.pc = 255) :
    fetch s = .error (.outOfBounds 256 { pc := 255, latch := Latch.ofBytes [Memory.read s.mem 255] }) := by
  rw [fetch_eq, readWindow_of_lt, readWindow_of_ge]
  · simp [State.context, h, Except.map]
  all_goals simp [h]

/-- From 256 on the first read aborts, with nothing latched. -/
theorem fetch_of_ge_256 {s : State} (h : 256 ≤ s.pc) :
    fetch s = .error (.outOfBounds s.pc { pc := s.pc, latch := Latch.empty }) := by
  rw [fetch_eq, readWindow_of_ge]
  · rfl
  · simpa using h

/-- A fetch past the range raises OutOfBounds and answers no state (R79). -/
theorem fetch_of_gt {s : State} (h : 254 ≤ s.pc) :
    ∃ l, fetch s = .error (.outOfBounds (max 256 s.pc) { pc := s.pc, latch := l }) := by
  by_cases h1 : 256 ≤ s.pc
  · exact ⟨_, by rw [Nat.max_eq_right h1, fetch_of_ge_256 h1]⟩
  · rcases (show s.pc = 254 ∨ s.pc = 255 by omega) with e | e <;> rw [e]
    · exact ⟨_, fetch_of_eq_254 e⟩
    · exact ⟨_, fetch_of_eq_255 e⟩

/-- A halted or aborted machine does not change (R38). -/
theorem step_of_not_running {s : State} (h : s.run ≠ .running) : step s = .next s := by
  unfold step cycle; split <;> simp_all

theorem step_of_running {s : State} (h : s.run = .running) : step s = runCycle s := by
  simp [step, cycle, h]

/-- A step that answers a next state: nothing moved because the machine was not running, or the fetch was in range
and the fetched bytes were an instruction or an unknown opcode. -/
theorem step_next_cases {s t : State} (h : step s = .next t) :
    (s.run ≠ .running ∧ t = s) ∨
    (s.run = .running ∧ s.pc ≤ 253 ∧
      ((∃ i u, fetchedOp s = .known i ∧ exec i (latched s) = .next u ∧ t = retire u) ∨
       (∃ ir, fetchedOp s = .unknown ir ∧ t = retire (skipUnknown ir (latched s))))) := by
  by_cases hr : s.run = .running
  · rw [step_of_running hr] at h
    by_cases hp : s.pc ≤ 253
    · rw [runCycle_of_le hp] at h
      refine .inr ⟨hr, hp, ?_⟩
      match hd : fetchedOp s with
      | .known i =>
        rw [hd] at h
        match he : exec i (latched s) with
        | .next u => exact .inl ⟨i, u, rfl, he, by simpa [dispatch, he, eq_comm] using h⟩
        | .fault f => simp [dispatch, he] at h
        | .refused r => simp [dispatch, he] at h
      | .unknown ir => rw [hd] at h; exact .inr ⟨ir, rfl, by simpa [dispatch, eq_comm] using h⟩
      | .unnamed ir => rw [hd] at h; simp [dispatch] at h
    · obtain ⟨l, hl⟩ := fetch_of_gt (s := s) (by omega)
      simp [runCycle, hl] at h
  · rw [step_of_not_running hr] at h
    exact .inl ⟨hr, by simpa [eq_comm] using h⟩

end Sys2Proof.Machine
end

