-- ==== Sys2Proof/Laws/PerInstr.lean ====
section
/-! SUPPORT. Facts made one instruction at a time: under every map that agrees with the spec an encoding is as many bytes
as the opcode's two top bits say, beginning with the opcode byte and the operands of the format (R61, R62, R64, R67). -/

namespace Sys2Proof.Laws.EncodeShape

/-- The length of an instruction's encoding, and what it begins with. -/
def Statement (i : Instr) : Prop :=
  ∀ om : OpcodeMap, om.wf →
    (encode om i).length = 1 + operandCount (om.byte i.mnemonic) ∧
    (encode om i).take (1 + i.mnemonic.operands) = om.byte i.mnemonic :: i.operandBytes

theorem of_any (i : Instr) : Statement i := fun om hw => by
  refine ⟨length_encode hw i, ?_⟩
  rw [encode, Nat.add_comm, List.take_succ_cons, ← length_operandBytes i, List.take_left]

theorem hlt : Statement .hlt := of_any _
theorem ret : Statement .ret := of_any _
theorem push (a : Byte) : Statement (.push a) := of_any _
theorem pop (a : Byte) : Statement (.pop a) := of_any _
theorem prn (a : Byte) : Statement (.prn a) := of_any _
theorem call (a : Byte) : Statement (.call a) := of_any _
theorem jmp (a : Byte) : Statement (.jmp a) := of_any _
theorem jeq (a : Byte) : Statement (.jeq a) := of_any _
theorem jne (a : Byte) : Statement (.jne a) := of_any _
theorem not (a : Byte) : Statement (.not a) := of_any _
theorem ldi (a imm : Byte) : Statement (.ldi a imm) := of_any _
theorem add (a b : Byte) : Statement (.add a b) := of_any _
theorem mul (a b : Byte) : Statement (.mul a b) := of_any _
theorem mod (a b : Byte) : Statement (.mod a b) := of_any _
theorem cmp (a b : Byte) : Statement (.cmp a b) := of_any _
theorem and (a b : Byte) : Statement (.and a b) := of_any _
theorem or (a b : Byte) : Statement (.or a b) := of_any _
theorem xor (a b : Byte) : Statement (.xor a b) := of_any _
theorem shl (a b : Byte) : Statement (.shl a b) := of_any _
theorem shr (a b : Byte) : Statement (.shr a b) := of_any _

end Sys2Proof.Laws.EncodeShape
end

