-- ==== Sys2Proof/Laws/Place.lean ====
section
/-! SUPPORT. Placing an instruction for the next step: the step then fetches exactly the bytes placed and runs what
they decode to. -/

namespace Sys2Proof.Machine

theorem placeWindow_pc_le (s : State) (w : Window) : (placeWindow s w).pc ≤ 253 := by
  exact Nat.min_le_right s.pc lastFetch

theorem placeWindow_run (s : State) (w : Window) : (placeWindow s w).run = .running := rfl

/-- The three bytes at `pc` are the window placed (R78). -/
theorem windowAt_placeWindow (s : State) (w : Window) : windowAt (placeWindow s w) = w := by
  simp [windowAt, placeWindow, Memory.read_writeList, Window.bytes]

/-- The next step runs the instruction placed. -/
theorem step_placeWindow (s : State) {w : Window} {i : Instr} (h : decode s.params w = .known i) :
    step (placeWindow s w) = retireResult (exec i (latched (placeWindow s w))) := by
  have hf : fetchedOp (placeWindow s w) = .known i := by
    unfold fetchedOp; rw [windowAt_placeWindow]; exact h
  rw [step_of_running (placeWindow_run s w), runCycle_of_le (placeWindow_pc_le s w), hf]
  rfl

/-- The next step of `withFetchWord` runs the instruction that the word decodes to under the state's parameters; for
the default ones that is the instruction of `decodeTableWord`. -/
theorem step_withFetchWord (s : State) {nbits n : Nat} {i : Instr}
    (h : decode s.params (wordWindow nbits n) = .known i) :
    step (s.withFetchWord nbits n) = retireResult (exec i (latched (s.withFetchWord nbits n))) :=
  step_placeWindow s h

theorem decodeTableWord_eq_some {nbits n : Nat} {i : Instr} :
    decodeTableWord nbits n = some i ↔ decode Params.defaults (wordWindow nbits n) = .known i := by
  unfold decodeTableWord; split <;> simp [*]

end Sys2Proof.Machine
end

