-- ==== Sys2Proof/Laws/Word.lean ====
section
/-! SUPPORT. The range of a byte, in numerals (R10). -/

namespace Sys2Proof

theorem byte_toNat_lt (b : Byte) : b.toNat < 256 := b.isLt

/-- A sum, product or remainder stored in a byte keeps its value modulo 256 (R28, R96). -/
theorem byte_ofNat_toNat (n : Nat) : (BitVec.ofNat Config.XLEN n).toNat = n % 256 := BitVec.toNat_ofNat n 8

end Sys2Proof
end

