-- ==== Sys2Proof/Machine/Asm.lean ====
section
/-! DEFINITION. The assembly syntax of the spec (R74, its own choice, D17): how an instruction is written.  Nothing of
the machine depends on it. -/

namespace Sys2Proof.Machine

/-- The name of an operation. -/
def mnemonicText : Mnemonic → String
  | .HLT => "HLT"
  | .RET => "RET"
  | .PUSH => "PUSH"
  | .POP => "POP"
  | .PRN => "PRN"
  | .CALL => "CALL"
  | .JMP => "JMP"
  | .JEQ => "JEQ"
  | .JNE => "JNE"
  | .NOT => "NOT"
  | .LDI => "LDI"
  | .ADD => "ADD"
  | .MUL => "MUL"
  | .MOD => "MOD"
  | .CMP => "CMP"
  | .AND => "AND"
  | .OR => "OR"
  | .XOR => "XOR"
  | .SHL => "SHL"
  | .SHR => "SHR"

/-- A register operand, `R0` to `R7`; an index above 7 has no name. -/
def registerText (r : Byte) : Option String := if validReg r then some ("R" ++ toString r.toNat) else none

/-- An immediate, in decimal. -/
def immediateText (imm : Byte) : String := toString imm.toNat

/-- The operands of an instruction, as text. -/
def operandTexts (i : Instr) : Option (List String) :=
  match i with
  | .ldi a imm => (registerText a).map fun r => [r, immediateText imm]
  | .hlt | .ret | .push _ | .pop _ | .prn _ | .call _ | .jmp _ | .jeq _ | .jne _ | .not _ | .add _ _ | .mul _ _
  | .mod _ _ | .cmp _ _ | .and _ _ | .or _ _ | .xor _ _ | .shl _ _ | .shr _ _ => i.regOperands.mapM registerText

/-- One line of assembly: the mnemonic, then its operands separated by a comma. -/
def assemblyText (i : Instr) : Option String :=
  (operandTexts i).map fun ops =>
    if ops.isEmpty then mnemonicText i.mnemonic else mnemonicText i.mnemonic ++ " " ++ ", ".intercalate ops

end Sys2Proof.Machine
end

