-- ==== Sys2Proof/Tests/Slice0.lean ====
section
/-! SUPPORT. The model's own tests, one step each, and a witness for the hypotheses of every statement.  Expected values
come from spec/95_test_vectors.md: a test's comment names the vector (VA, VC, VS, VT, VE, W, P) or the rule. -/

open Sys2Proof Sys2Proof.Machine

namespace Sys2Proof.Tests

/-- The reset machine with R0 = `a`, R1 = `b` and bytes placed from address 0. -/
def machine (bs : List Byte) (a b : Byte) : State :=
  { State.reset with regs := #v[a, b, 0, 0, 0, 0, 0, 0xF4], mem := Memory.writeList [] 0 bs }

/-- The reset machine with SP = `sp`, `pc` = `p`, R0 = `a` and bytes placed at the addresses given. -/
def stackMachine (sp : Byte) (p : Nat) (a : Byte) (cells : List (Nat × Byte)) : State :=
  { State.reset with
    regs := #v[a, 0, 0, 0, 0, 0, 0, sp]
    pc := p
    mem := cells.foldl (fun m c => Memory.write m c.1 c.2) [] }

/-- The reset machine at address 12 with R2 = 20, FL = `fl` and a two-byte branch there. -/
def branchMachine (op a fl : Byte) : State :=
  { State.reset with
    regs := #v[0, 0, 20, 0, 0, 0, 0, 0xF4]
    pc := 12
    fl := fl
    mem := Memory.writeList [] 12 [op, a] }

/-- `s` with BRANCH_CHECKS_UNTAKEN set. -/
def checking (s : State) : State := { s with params := { s.params with branchChecksUntaken := true } }

/-- `s` with UNNAMED_OPCODES = {0x02}. -/
def unnaming (s : State) : State := { s with params := { s.params with unnamedOpcodes := [0x02] } }

/-- Another map that agrees with the spec: ADD and NOT moved, NOT with two operand bytes (0xA9 counts two). -/
def otherMap : OpcodeMap := { OPCODE_MAP with ADD := 0xA1, NOT := 0xA9 }

/-- `s` under the other map. -/
def remapped (s : State) : State := withMap otherMap s

/-- The outcome is the next state `t`, whole. -/
def isNext (r : Result) (t : State) : Bool :=
  match r with
  | .next u => decide (u = t)
  | .fault _ => false
  | .refused _ => false

/-- The outcome is a next state with a property. -/
def nextHas (r : Result) (p : State → Bool) : Bool :=
  match r with
  | .next u => p u
  | .fault _ => false
  | .refused _ => false

/-- The outcome is the given fault. -/
def isFault (r : Result) (f : Fault) : Bool :=
  match r with
  | .next _ => false
  | .fault g => decide (g = f)
  | .refused _ => false

/-- The outcome is the given refusal. -/
def isRefused (r : Result) (q : Refusal) : Bool :=
  match r with
  | .next _ => false
  | .fault _ => false
  | .refused g => decide (g = q)

/-! ### WellFormed: an ill-formed term for each check (R27, R65) -/

theorem test_wf_all_formats : Instr.WellFormed .hlt ∧ Instr.WellFormed (.push 7) ∧ Instr.WellFormed (.ldi 7 255) ∧
    Instr.WellFormed (.add 7 7) := by decide
theorem test_wf_refuses_format_R : ¬ Instr.WellFormed (.prn 8) ∧ ¬ Instr.WellFormed (.jmp 255) := by decide
theorem test_wf_refuses_format_RI : ¬ Instr.WellFormed (.ldi 8 0) := by decide
theorem test_wf_refuses_format_RR_first : ¬ Instr.WellFormed (.add 8 0) := by decide
theorem test_wf_refuses_format_RR_second : ¬ Instr.WellFormed (.mod 0 8) := by decide
theorem test_params_wf : Params.wf Params.defaults ∧ ¬ Params.wf { Params.defaults with unnamedOpcodes := [0x01] } ∧
    ¬ Params.wf { Params.defaults with unnamedOpcodes := [2, 3, 4] } := by decide
theorem test_map_wf_refuses : ¬ OpcodeMap.wf { OPCODE_MAP with ADD := 0xA2 } ∧
    ¬ OpcodeMap.wf { OPCODE_MAP with HLT := 0x02 } ∧ ¬ OpcodeMap.wf { OPCODE_MAP with PRN := 0x48 } ∧
    ¬ OpcodeMap.wf { OPCODE_MAP with LDI := 0x83 } ∧ ¬ OpcodeMap.wf { OPCODE_MAP with PUSH := 0x85 } := by decide

/-! ### Decode: words written out from R64 and R67, one for every constructor -/

theorem test_decode_format_Z :
    decodeTableWord 8 0b00000001 = some .hlt ∧ decodeTableWord 8 0b00010001 = some .ret := by decide
theorem test_decode_format_R_stack :
    decodeTableWord 16 0b00000010_01000101 = some (.push 2) ∧ decodeTableWord 16 0b00000011_01000110 = some (.pop 3) ∧
    decodeTableWord 16 0b00000100_01000111 = some (.prn 4) ∧
    decodeTableWord 16 0b00000101_01101001 = some (.not 5) := by decide
theorem test_decode_format_R_control :
    decodeTableWord 16 0b00000001_01010000 = some (.call 1) ∧ decodeTableWord 16 0b00000110_01010100 = some (.jmp 6) ∧
    decodeTableWord 16 0b00000111_01010101 = some (.jeq 7) ∧
    decodeTableWord 16 0b11111111_01010110 = some (.jne 255) := by decide
theorem test_decode_format_RI : decodeTableWord 24 0b00001000_00000001_10000010 = some (.ldi 1 8) := by decide
theorem test_decode_format_RR_arithmetic :
    decodeTableWord 24 0b00000010_00000001_10100000 = some (.add 1 2) ∧
    decodeTableWord 24 0b00000010_00000001_10100010 = some (.mul 1 2) ∧
    decodeTableWord 24 0b00000010_00000001_10100100 = some (.mod 1 2) ∧
    decodeTableWord 24 0b00000010_00000001_10100111 = some (.cmp 1 2) := by decide
theorem test_decode_format_RR_bitwise :
    decodeTableWord 24 0b00000010_00000001_10101000 = some (.and 1 2) ∧
    decodeTableWord 24 0b00000010_00000001_10101010 = some (.or 1 2) ∧
    decodeTableWord 24 0b00000010_00000001_10101011 = some (.xor 1 2) ∧
    decodeTableWord 24 0b00000010_00000001_10101100 = some (.shl 1 2) ∧
    decodeTableWord 24 0b00000010_00000001_10101101 = some (.shr 1 2) := by decide
/-- VE1, VE2: 0x02 and 0xFF are unknown, of length 1 (C1); a byte of UNNAMED_OPCODES has no length. -/
theorem test_decode_unknown :
    decodeTableWord 8 0x02 = none ∧ decodeOp Params.defaults 0xFF = .unknown ∧
    (decodeOp Params.defaults 0xFF).len 0xFF = some 1 ∧
    decodeOp { Params.defaults with unnamedOpcodes := [0x02] } 0x02 = .unnamed ∧
    (decodeOp { Params.defaults with unnamedOpcodes := [0x02] } 0x02).len 0x02 = none := by decide
/-- R63: bit 5 marks the ALU operations and bit 4 the operations that set `pc`, over the whole default map. -/
theorem test_marker_bits :
    ∀ m ∈ Mnemonic.all, markerB (OPCODE_MAP.byte m) = m.isAlu ∧ markerC (OPCODE_MAP.byte m) = m.setsPc := by decide
/-- R63: "0x82 = 10 0 0 0010": DDDD is 0010. -/
theorem test_identifier : identifier 0x82 = 2 ∧ identifier 0x47 = 7 ∧ identifier 0xAD = 13 := by decide
/-- R74's own examples. -/
theorem test_assembly :
    assemblyText (.ldi 0 8) = some "LDI R0, 8" ∧ assemblyText (.mul 0 1) = some "MUL R0, R1" ∧
    assemblyText .hlt = some "HLT" ∧ assemblyText (.prn 8) = none := by decide

/-! ### One step of each instruction -/

/-- VA1. -/
theorem test_add_wraps : isNext (step (machine [0xA0, 0, 1] 200 100))
    { machine [0xA0, 0, 1] 200 100 with regs := #v[44, 100, 0, 0, 0, 0, 0, 0xF4], pc := 3 } := by decide
/-- VA35. -/
theorem test_add_moves_sp : nextHas (step (machine [0xA0, 7, 1] 0 0x10)) (fun t => t.sp == 0x04) := by decide
/-- VA7. -/
theorem test_mul_wraps : isNext (step (machine [0xA2, 0, 1] 255 255))
    { machine [0xA2, 0, 1] 255 255 with regs := #v[1, 255, 0, 0, 0, 0, 0, 0xF4], pc := 3 } := by decide
/-- VA8. -/
theorem test_mul_largest : nextHas (step (machine [0xA2, 0, 1] 15 17)) (fun t => t.reg? 0 == some 255) := by decide
/-- VA10. -/
theorem test_and : isNext (step (machine [0xA8, 0, 1] 0xF0 0x3C))
    { machine [0xA8, 0, 1] 0xF0 0x3C with regs := #v[0x30, 0x3C, 0, 0, 0, 0, 0, 0xF4], pc := 3 } := by decide
/-- VA11. -/
theorem test_or : isNext (step (machine [0xAA, 0, 1] 0xF0 0x0F))
    { machine [0xAA, 0, 1] 0xF0 0x0F with regs := #v[0xFF, 0x0F, 0, 0, 0, 0, 0, 0xF4], pc := 3 } := by decide
/-- VA12. -/
theorem test_xor : isNext (step (machine [0xAB, 0, 1] 0xFF 0x0F))
    { machine [0xAB, 0, 1] 0xFF 0x0F with regs := #v[0xF0, 0x0F, 0, 0, 0, 0, 0, 0xF4], pc := 3 } := by decide
/-- VA13. -/
theorem test_xor_same : nextHas (step (machine [0xAB, 0, 0] 0x5A 1)) (fun t => t.reg? 0 == some 0) := by decide
/-- VA18: the byte after the operand is not checked. -/
theorem test_not_ignores_byte_2 : isNext (step (machine [0x69, 0, 9] 1 0))
    { machine [0x69, 0, 9] 1 0 with regs := #v[0xFE, 0, 0, 0, 0, 0, 0, 0xF4], pc := 2 } := by decide
/-- VA17. -/
theorem test_not_sp : nextHas (step (machine [0x69, 7] 0 0)) (fun t => t.sp == 0x0B) := by decide
/-- VA19. -/
theorem test_shl_loses_top_bit : isNext (step (machine [0xAC, 0, 1] 0x81 1))
    { machine [0xAC, 0, 1] 0x81 1 with regs := #v[0x02, 1, 0, 0, 0, 0, 0, 0xF4], pc := 3 } := by decide
/-- VA22. -/
theorem test_shl_amount_not_reduced :
    nextHas (step (machine [0xAC, 0, 1] 0xFF 200)) (fun t => t.reg? 0 == some 0) := by decide
/-- VA25. -/
theorem test_shr_is_logical : isNext (step (machine [0xAD, 0, 1] 0xFF 4))
    { machine [0xAD, 0, 1] 0xFF 4 with regs := #v[0x0F, 4, 0, 0, 0, 0, 0, 0xF4], pc := 3 } := by decide
/-- VA27. -/
theorem test_shr_by_eight : nextHas (step (machine [0xAD, 0, 1] 0xFF 8)) (fun t => t.reg? 0 == some 0) := by decide
/-- VA28. -/
theorem test_mod : isNext (step (machine [0xA4, 0, 1] 10 3))
    { machine [0xA4, 0, 1] 10 3 with regs := #v[1, 3, 0, 0, 0, 0, 0, 0xF4], pc := 3 } := by decide
/-- VA30: the halt, the diagnostic and the untouched registers; `pc` is a free value and is not tested. -/
theorem test_mod_by_zero : nextHas (step (machine [0xA4, 0, 1] 77 0)) (fun t => t.run == .halted .modZero &&
    t.dg == [.modByZero 0xA4 0] && t.reg? 0 == some 77 && t.reg? 1 == some 0 && t.out == []) := by decide
/-- VC8: the whole byte is replaced. -/
theorem test_cmp_replaces_fl : isNext (step { machine [0xA7, 0, 1] 1 2 with fl := 0xFF })
    { machine [0xA7, 0, 1] 1 2 with fl := 4, pc := 3 } := by decide
/-- VC6, VC1. -/
theorem test_cmp_unsigned : nextHas (step (machine [0xA7, 0, 1] 0x80 0x7F)) (fun t => t.fl == 2) ∧
    nextHas (step (machine [0xA7, 0, 1] 5 5)) (fun t => t.fl == 1) := by decide
/-- VS1. -/
theorem test_ldi : isNext (step (machine [0x82, 3, 0xC8] 1 2))
    { machine [0x82, 3, 0xC8] 1 2 with regs := #v[1, 2, 0, 0xC8, 0, 0, 0, 0xF4], pc := 3 } := by decide
/-- VS2. -/
theorem test_ldi_sp : nextHas (step (machine [0x82, 7, 0x40] 0 0)) (fun t => t.sp == 0x40) := by decide
/-- VS4. -/
theorem test_prn : isNext (step (machine [0x47, 0] 255 0))
    { machine [0x47, 0] 255 0 with out := [255], pc := 2 } := by decide
/-- VS6. -/
theorem test_push_wraps : isNext (step (stackMachine 0 0 9 [(0, 0x45)]))
    (stackMachine 0xFF 2 9 [(0, 0x45), (0xFF, 9)]) := by decide
/-- VS8. -/
theorem test_push_sp : nextHas (step (stackMachine 0xF4 0 0 [(0, 0x45), (1, 7)]))
    (fun t => t.sp == 0xF3 && Memory.read t.mem 0xF3 == 0xF3) := by decide
/-- VS7. -/
theorem test_pop_wraps : isNext (step (stackMachine 0xFF 0 0 [(0, 0x46), (0xFF, 3)]))
    (stackMachine 0 2 3 [(0, 0x46), (0xFF, 3)]) := by decide
/-- VS9. -/
theorem test_pop_sp : nextHas (step (stackMachine 0xF0 0 0 [(0, 0x46), (1, 7), (0xF0, 0x20)]))
    (fun t => t.sp == 0x21) := by decide
/-- VT3's shape with R0: CALL at 6. -/
theorem test_call : isNext (step (stackMachine 0xF4 6 11 [(6, 0x50)]))
    (stackMachine 0xF3 11 11 [(6, 0x50), (0xF3, 8)]) := by decide
/-- VT5. -/
theorem test_call_sp : isNext (step (stackMachine 0xF4 0 0 [(0, 0x50), (1, 7)]))
    (stackMachine 0xF3 0xF3 0 [(0, 0x50), (1, 7), (0xF3, 2)]) := by decide
/-- VT4. -/
theorem test_ret : isNext (step (stackMachine 0xF3 0 5 [(0, 0x11), (0xF3, 8)]))
    (stackMachine 0xF4 8 5 [(0, 0x11), (0xF3, 8)]) := by decide
/-- VT18. -/
theorem test_ret_wraps : nextHas (step (stackMachine 0xFF 0 0 [(0, 0x11), (0xFF, 0x30)]))
    (fun t => t.pc == 0x30 && t.sp == 0) := by decide
/-- VT1. -/
theorem test_jmp : isNext (step (machine [0x54, 0] 0x20 0)) { machine [0x54, 0] 0x20 0 with pc := 0x20 } := by decide
/-- VT8, VT9. -/
theorem test_jeq : isNext (step (branchMachine 0x55 2 1)) { branchMachine 0x55 2 1 with pc := 20 } ∧
    isNext (step (branchMachine 0x55 2 4)) { branchMachine 0x55 2 4 with pc := 14 } := by decide
/-- VT14, VT15. -/
theorem test_jeq_untaken_check : nextHas (step (branchMachine 0x55 9 4)) (fun t => t.pc == 14) ∧
    isFault (step (checking (branchMachine 0x55 9 4)))
      (.invalidRegister 9 ⟨12, ⟨some 0x55, some 9, some 0⟩⟩) ∧
    isFault (step (branchMachine 0x55 9 1)) (.invalidRegister 9 ⟨12, ⟨some 0x55, some 9, some 0⟩⟩) := by decide
/-- VT11, VT12. -/
theorem test_jne : isNext (step (branchMachine 0x56 2 2)) { branchMachine 0x56 2 2 with pc := 20 } ∧
    isNext (step (branchMachine 0x56 2 1)) { branchMachine 0x56 2 1 with pc := 14 } := by decide
/-- VT10, VT13: only bit E is tested. -/
theorem test_branches_read_bit_E : nextHas (step (branchMachine 0x55 2 3)) (fun t => t.pc == 20) ∧
    nextHas (step (branchMachine 0x56 2 6)) (fun t => t.pc == 20) := by decide
/-- VE4: HLT at 253. -/
theorem test_hlt : isNext (step (stackMachine 0xF4 253 0 [(253, 1)]))
    { stackMachine 0xF4 254 0 [(253, 1)] with run := .halted .hlt } := by decide
/-- VE8. -/
theorem test_halted_stays : isNext (step { machine [0x47] 8 0 with run := .halted .hlt })
    { machine [0x47] 8 0 with run := .halted .hlt } := by decide

/-! ### Fetch, aborts, refusal, boot -/

/-- VE2 and VE3: unknown opcodes advance by one byte, and what follows is not checked. -/
theorem test_unknown : isNext (step (machine [0xFF] 0 0)) { machine [0xFF] 0 0 with dg := [.unknownOpcode 0xFF 0], pc := 1 } ∧
    isNext (step (machine [0x83, 9, 9] 0 0))
      { machine [0x83, 9, 9] 0 0 with dg := [.unknownOpcode 0x83 0], pc := 1 } := by decide
/-- VE9. -/
theorem test_unnamed : isRefused (step (unnaming (machine [0x02] 0 0))) (.unnamedOpcode 0x02 0) := by decide
/-- VE5, VE6. -/
theorem test_fetch_at_254_and_255 :
    isFault (step (stackMachine 0xF4 254 0 [(254, 1)])) (.outOfBounds 256 ⟨254, ⟨some 1, some 0, none⟩⟩) ∧
    isFault (step (stackMachine 0xF4 255 0 [(255, 1)])) (.outOfBounds 256 ⟨255, ⟨some 1, none, none⟩⟩) := by decide
/-- VE7: LDI at 253 leaves `pc` at 256, whose fetch aborts. -/
theorem test_run_off_the_end : nextHas (step (stackMachine 0xF4 253 0 [(253, 0x82), (255, 5)])) (fun t =>
    t.pc == 256 && t.reg? 0 == some 5 && isFault (step t) (.outOfBounds 256 ⟨256, Latch.empty⟩)) := by decide
/-- VA38, VA39, VA36: register A is checked before register B, both before the divisor. -/
theorem test_check_order :
    isFault (step (machine [0xA4, 9, 2] 0 0)) (.invalidRegister 9 ⟨0, ⟨some 0xA4, some 9, some 2⟩⟩) ∧
    isFault (step (machine [0xA4, 0, 9] 5 0)) (.invalidRegister 9 ⟨0, ⟨some 0xA4, some 0, some 9⟩⟩) ∧
    isFault (step (machine [0xA0, 9, 8] 5 0)) (.invalidRegister 9 ⟨0, ⟨some 0xA0, some 9, some 8⟩⟩) := by decide
/-- VS11, VS13, VT6, VS3. -/
theorem test_invalid_register :
    isFault (step (machine [0x45, 9] 0 0)) (.invalidRegister 9 ⟨0, ⟨some 0x45, some 9, some 0⟩⟩) ∧
    isFault (step (machine [0x47, 8] 0 0)) (.invalidRegister 8 ⟨0, ⟨some 0x47, some 8, some 0⟩⟩) ∧
    isFault (step (machine [0x50, 9] 0 0)) (.invalidRegister 9 ⟨0, ⟨some 0x50, some 9, some 0⟩⟩) ∧
    isFault (step (machine [0x82, 9, 5] 0 0)) (.invalidRegister 9 ⟨0, ⟨some 0x82, some 9, some 5⟩⟩) := by decide
/-- VS12: PUSH R0 at 0xF0 with SP = 0xF2 overwrites its own operand byte. -/
theorem test_push_over_own_operand : isNext (step (stackMachine 0xF2 0xF0 7 [(0xF0, 0x45)]))
    (stackMachine 0xF1 0xF2 7 [(0xF0, 0x45), (0xF1, 7)]) := by decide
/-- D2, U21: under another map ADD has its byte, the default's byte is unknown, and NOT is as long as its byte says. -/
theorem test_other_map :
    nextHas (step (remapped (machine [0xA1, 0, 1] 200 100))) (fun t => t.reg? 0 == some 44 && t.pc == 3) ∧
    nextHas (step (remapped (machine [0xA0, 0, 1] 200 100))) (fun t => t.dg == [.unknownOpcode 0xA0 0] && t.pc == 1) ∧
    nextHas (step (remapped (machine [0xA9, 0, 9] 1 0))) (fun t => t.reg? 0 == some 0xFE && t.pc == 3) := by decide
/-- R163's codes. -/
theorem test_status_codes : (runAfter (step (machine [1] 0 0))).map Run.code = some 1 ∧
    (runAfter (step (machine [0xA4, 0, 1] 0 0))).map Run.code = some 2 ∧
    (runAfter (step (stackMachine 0 254 0 []))).map Run.code = some 3 ∧
    (runAfter (step (machine [0x47, 8] 0 0))).map Run.code = some 4 ∧
    (runAfter (step (machine [0x47] 0 0))).map Run.code = some 0 := by decide
/-- R44 and W1's image: LDI R0, 8; PRN R0; HLT. -/
theorem test_boot : nextHas (boot { Launch.bare with image := [0x82, 0, 8, 0x47, 0, 1] }) (fun t =>
    t.mem == [(0, 0x82), (2, 8), (3, 0x47), (5, 1)] && t.pc == 0 && t.sp == 0xF4 && t.run == .running) := by decide
/-- R182: 256 bytes are placed. -/
theorem test_boot_full (image : List Byte) (h : image.length = 256) :
    nextHas (boot { Launch.bare with image := image }) (fun t => t.pc == 0 && t.run == .running) := by
  simp [boot, h, nextHas, Launch.state, State.reset]
/-- R182: 257 bytes are refused. -/
theorem test_boot_refuses (image : List Byte) (h : image.length = 257) :
    boot { Launch.bare with image := image } = .refused (.imageTooLong 257) := by
  simp [boot, h]
/-- A placed word is what the next step runs. -/
theorem test_withFetchWord : nextHas (step (State.reset.withFetchWord 24 0x080182)) (fun t => t.reg? 1 == some 8) := by
  decide

/-! ### Witnesses: a concrete state and operands that meet the hypotheses of each statement, clause by clause -/

/-- DecodeInvertsEncode, EncodeInvertsDecode, LengthsUnderEveryMap: the default map and another one, where NOT has two
operand bytes. -/
theorem witness_decodes : OPCODE_MAP.wf ∧ otherMap.wf ∧
    decode Params.defaults { ir := 0xA4, opA := 255, opB := 0 } = .known (.mod 255 0) ∧
    decode { Params.defaults with opcodeMap := otherMap } { ir := 0xA9, opA := 255, opB := 9 } = .known (.not 255) ∧
    operandCount 0xA9 = 2 ∧ operandCount 0x69 = 1 := by decide

/-- EveryOpcodeByteIsClassified: each of its three clauses, with a known byte in UNNAMED_OPCODES too. -/
theorem witness_opcode_classes : (∃ m, (0x01 : Byte) = OPCODE_MAP.byte m) ∧
    (∀ m, (0x00 : Byte) ≠ OPCODE_MAP.byte m) ∧ (0x00 : Byte) ∈ [(0x00 : Byte), 0x01] ∧
    (∀ m, (0xFF : Byte) ≠ OPCODE_MAP.byte m) ∧ (0xFF : Byte) ∉ [(0x00 : Byte), 0x01] := by
  refine ⟨⟨.HLT, rfl⟩, ?_, by decide, ?_, by decide⟩ <;> intro m <;> cases m <;> decide

/-- RegisterHoldsWhatWasWritten, MemoryAccessIsRangeChecked and the InvalidRegister clauses: the boundaries. -/
theorem witness_index_boundaries : (7 : Byte).toNat ≤ 7 ∧ (0 : Byte).toNat ≤ 7 ∧ 7 < (8 : Byte).toNat ∧
    7 < (255 : Byte).toNat ∧ (255 : Nat) ≤ 255 ∧ (255 : Nat) < 256 := by decide

/-- CanonicalMemoryIsExtensional: two memories built in different orders. -/
theorem witness_canonical_memories :
    Memory.wf (Memory.write (Memory.write [] 0 1) 255 2) ∧ Memory.wf (Memory.write (Memory.write [] 255 2) 0 1) ∧
    ∀ a, Memory.read (Memory.write (Memory.write [] 0 1) 255 2) a =
      Memory.read (Memory.write (Memory.write [] 255 2) 0 1) a := by
  refine ⟨by decide, by decide, fun a => ?_⟩
  simp only [Memory.read_write]
  split <;> split <;> simp_all

/-- AluFunctionTable: a zero and a nonzero divisor, and an operation outside the ALU. -/
theorem witness_alu_divisors : (1 : Byte).toNat ≠ 0 ∧ (0 : Byte).toNat = 0 ∧
    Mnemonic.HLT ∈ [Mnemonic.HLT, .RET, .PUSH, .POP, .PRN, .CALL, .JMP, .JEQ, .JNE, .LDI] := by decide

/-- AluResultsAreExactModulo256, CmpSetsExactlyOneFlag, ModGivesRemainder: two registers, the same register, and R7. -/
theorem witness_operands : (machine [] 5 3).reg? 0 = some 5 ∧ (machine [] 5 3).reg? 1 = some 3 ∧ (3 : Byte).toNat ≠ 0 ∧
    (machine [] 5 3).reg? 7 = some 0xF4 := by decide

/-- CmpSetsExactlyOneFlag's three clauses. -/
theorem witness_comparisons : (255 : Byte).toNat = (255 : Byte).toNat ∧ (0 : Byte).toNat < (255 : Byte).toNat ∧
    (254 : Byte).toNat < (255 : Byte).toNat := by decide

/-- ShiftsByEightOrMoreClear: 8, the least amount, and 255. -/
theorem witness_shift_amounts : (machine [] 8 255).reg? 0 = some 8 ∧ (machine [] 8 255).reg? 1 = some 255 ∧
    8 ≤ (8 : Byte).toNat ∧ 8 ≤ (255 : Byte).toNat := by decide

/-- ModByZeroHaltsAndWritesNothing. -/
theorem witness_zero_divisor : (machine [] 77 0).reg? 0 = some 77 ∧ (machine [] 77 0).reg? 1 = some 0 := by decide

/-- NotComplementsRegister, PrnEmitsRegister, JmpLoadsPc, PushStoresAtDecrementedSp, PushThenPopRestores and
CallPushesReturnAddress: R6, R7 and an index that names none; SP zero and not. -/
theorem witness_stack_operands :
    (stackMachine 0 253 9 []).reg? 0 = some 9 ∧ (0 : Byte) ≠ 7 ∧ (stackMachine 0 253 9 []).reg? 7 = some 0 ∧
    (stackMachine 0 253 9 []).sp = 0 ∧ (stackMachine 1 253 9 []).sp ≠ 0 ∧ (stackMachine 0 253 9 []).pc ≤ 253 ∧
    7 < (8 : Byte).toNat := by decide

/-- CallThenRetResumes: CALL R0 at 6 to a RET at 253. -/
theorem witness_call_then_ret :
    let s := stackMachine 0xF4 6 253 [(6, 0x50), (253, 0x11)]
    s.run = .running ∧ s.pc ≤ 253 ∧ fetchedOp s = .known (.call 0) ∧ s.reg? 0 = some 253 ∧ (253 : Byte).toNat ≤ 253 ∧
      nextHas (step s) (fun t => fetchedOp t == .known .ret) := by decide

/-- BranchesFollowBitE: taken and not taken, both ways, with and without the check. -/
theorem witness_branch_directions :
    (branchMachine 0x55 2 1).fl.getLsbD 0 = true ∧ (branchMachine 0x56 2 0xFE).fl.getLsbD 0 = false ∧
    (branchMachine 0x55 2 1).reg? 2 = some 20 ∧ (branchMachine 0x56 2 0xFE).reg? 2 = some 20 ∧
    (branchMachine 0x55 2 0xFE).fl.getLsbD 0 = false ∧ (branchMachine 0x56 2 1).fl.getLsbD 0 = true ∧
    (branchMachine 0x55 2 1).params.opcodeMap.wf ∧ (remapped (branchMachine 0x56 2 1)).params.opcodeMap.wf ∧
    (branchMachine 0x55 2 1).params.branchChecksUntaken = false ∧
    (checking (branchMachine 0x55 2 1)).params.branchChecksUntaken = true ∧ 7 < (8 : Byte).toNat := by decide

/-- InvalidRegisterExactlyWhenIndexAboveSeven: both clauses; a second register above 7 is not reported. -/
theorem witness_checked_registers :
    (∀ r ∈ checkedRegs (.add 7 0) State.reset, r.toNat ≤ 7) ∧
    (checkedRegs (.add 8 9) State.reset).find? (fun x => decide (7 < x.toNat)) = some 8 ∧
    (checkedRegs (.add 7 8) State.reset).find? (fun x => decide (7 < x.toNat)) = some 8 ∧
    checkedRegs (.jeq 9) State.reset = [] ∧ checkedRegs (.jeq 9) (checking State.reset) = [9] := by decide

/-- The statements about `exec i s = .next t` (OnlyListedInstructionsWriteRegisters, OnlyCmpWritesFl,
OnlyPushAndCallStore, InstructionsKeepTracesAndControl, PcAdvancesByOnePlusOperandCount): next states of each shape. -/
theorem witness_next_states : (∃ t, exec (.pop 7) State.reset = .next t) ∧ (∃ t, exec (.cmp 0 7) State.reset = .next t) ∧
    (∃ t, exec (.push 0) State.reset = .next t) ∧ (∃ t, exec .hlt State.reset = .next t) ∧
    (∃ t, exec (.mod 0 1) State.reset = .next t) ∧ (∃ t, exec (.mod 0 7) State.reset = .next t ∧ t.dg = State.reset.dg) ∧
    (∃ t, exec (.jeq 0) State.reset = .next t ∧ branchTaken (.jeq 0) State.reset.fl = false) ∧
    (∃ t, exec (.jne 0) State.reset = .next t ∧ branchTaken (.jne 0) State.reset.fl = true) :=
  ⟨⟨_, rfl⟩, ⟨_, rfl⟩, ⟨_, rfl⟩, ⟨_, rfl⟩, ⟨_, rfl⟩, ⟨_, rfl, rfl⟩, ⟨_, rfl, rfl⟩, ⟨_, rfl, rfl⟩⟩

/-- PcAdvancesByOnePlusOperandCount: an instruction that always loads `pc`, each of the three, and a MOD whose `dg` grows. -/
theorem witness_pc_loads : (∃ t, exec (.call 7) State.reset = .next t ∧ t.pc ≤ 255) ∧
    (∃ t, exec .ret State.reset = .next t ∧ t.pc ≤ 255) ∧ (∃ t, exec (.jmp 7) State.reset = .next t ∧ t.pc ≤ 255) ∧
    (∃ t, exec (.mod 0 1) State.reset = .next t ∧ t.dg ≠ State.reset.dg) :=
  ⟨⟨_, rfl, by decide⟩, ⟨_, rfl, by decide⟩, ⟨_, rfl, by decide⟩, ⟨_, rfl, by decide⟩⟩

/-- EncodedInstructionRuns and OnlyOperandCountsOfTheMapMatter, under a map that is not the default. -/
theorem witness_other_map :
    let s := remapped (machine [0xA1, 0, 1] 200 100)
    s.params.opcodeMap.wf ∧ s.run = .running ∧ s.pc ≤ 253 ∧ encode otherMap (.add 0 1) = [0xA1, 0, 1] ∧
      Memory.read s.mem 0 = 0xA1 ∧ Memory.read s.mem 1 = 0 ∧ Memory.read s.mem 2 = 1 ∧
      operandCount (otherMap.byte .ADD) = operandCount (OPCODE_MAP.byte .ADD) ∧
      otherMap.byte .MOD = OPCODE_MAP.byte .MOD := by decide

/-- OnlyListedInstructionsReadRegisters: an index of no register, a register not read, and a destination not read. -/
theorem witness_registers_not_read : (8 : Byte) ∉ readRegs (.add 0 1) 0 ∧ (2 : Byte) ∉ readRegs (.mod 0 1) 0 ∧
    (3 : Byte) ∉ readRegs (.ldi 3 5) 0 ∧ (3 : Byte) ∉ readRegs (.pop 3) 0 ∧ (2 : Byte) ∉ readRegs (.jeq 2) 4 := by decide

/-- OnlyBranchesReadFlAndOnlyBitE: an FL that differs in every other bit. -/
theorem witness_fl_with_same_bit_E : (0xFF : Byte).getLsbD 0 = (0x01 : Byte).getLsbD 0 ∧
    (Instr.jeq 0).mnemonic = .JEQ ∧ (Instr.jne 0).mnemonic = .JNE := by decide

/-- StepRunsDecodedInstruction: at the last address a fetch can start from. -/
theorem witness_fetched_at_253 :
    let s := stackMachine 0xF4 253 0 [(253, 0x82), (255, 5)]
    s.run = .running ∧ s.pc ≤ 253 ∧ fetchedOp s = .known (.ldi 0 5) ∧ windowAt s = ⟨0x82, 0, 5⟩ := by decide

/-- FetchPastTheEndAborts and OutOfBoundsOnlyFromFetch: each of the three clauses. -/
theorem witness_pc_past_the_end : (stackMachine 0 254 0 []).run = .running ∧ (stackMachine 0 254 0 []).pc = 254 ∧
    (stackMachine 0 255 0 []).pc = 255 ∧ 256 ≤ (stackMachine 0 256 0 []).pc ∧
    isFault (step (stackMachine 0 256 0 [])) (.outOfBounds 256 ⟨256, Latch.empty⟩) := by decide

/-- UnknownOpcodeIsSkipped and UnnamedOpcodeIsRefused, at 253; 0x02 is not in the map. -/
theorem witness_byte_outside_the_map :
    (stackMachine 0 253 0 [(253, 2)]).run = .running ∧ (stackMachine 0 253 0 [(253, 2)]).pc ≤ 253 ∧
    (∀ m, Memory.read (stackMachine 0 253 0 [(253, 2)]).mem 253 ≠ OPCODE_MAP.byte m) ∧
    Memory.read (stackMachine 0 253 0 [(253, 2)]).mem 253 ∉ State.reset.params.unnamedOpcodes ∧
    Memory.read (stackMachine 0 253 0 [(253, 2)]).mem 253 ∈ (unnaming (stackMachine 0 253 0 [])).params.unnamedOpcodes := by
  refine ⟨rfl, by decide, ?_, by decide, by decide⟩
  intro m; cases m <;> decide

/-- EndedMachineNeverChanges: each ended run state. -/
theorem witness_ended_runs : Run.halted .hlt ≠ .running ∧ Run.halted .modZero ≠ .running ∧
    Run.aborted (.outOfBounds 256 ⟨254, Latch.empty⟩) ≠ .running := by decide

/-- InvalidRegisterRecordsFullContext and OnlyUnnamedOpcodesAreRefused: a step that ends each way. -/
theorem witness_step_ends :
    isFault (step (machine [0x47, 8, 9] 0 0)) (.invalidRegister 8 ⟨0, ⟨some 0x47, some 8, some 9⟩⟩) ∧
    isRefused (step (unnaming (machine [2] 0 0))) (.unnamedOpcode 2 0) := by decide

/-- RunEndsOnlyByHltOrModZero, TracesGrowOnlyByTheirInstructions, LaunchParametersAreFixed: a running machine's next
state in each of their cases, under parameters that are not the defaults. -/
theorem witness_running_steps :
    nextHas (step (machine [0x47, 0] 8 0)) (fun t => t.run == .running && t.out == [8]) ∧
    nextHas (step (machine [1] 0 0)) (fun t => t.run == .halted .hlt) ∧
    nextHas (step (machine [0xA4, 0, 1] 0 0)) (fun t => t.run == .halted .modZero) ∧
    nextHas (step (checking (unnaming (machine [3] 0 0)))) (fun t => t.dg == [.unknownOpcode 3 0] &&
      t.params == { opcodeMap := OPCODE_MAP, unnamedOpcodes := [2], branchChecksUntaken := true }) := by decide

/-- PushUsesOperandReadAtFetch: VS12, and the same at 253. -/
theorem witness_push_over_operand :
    let s := stackMachine 0xFF 253 7 [(253, 0x45)]
    s.params.opcodeMap.wf ∧ s.run = .running ∧ s.pc ≤ 253 ∧ Memory.read s.mem s.pc = s.params.opcodeMap.byte .PUSH ∧ Memory.read s.mem (s.pc + 1) = 0 ∧
      s.reg? 0 = some 7 ∧ (0 : Byte) ≠ 7 ∧ s.sp.toNat = s.pc + 2 := by decide

/-- StoreIsSeenByNextFetch: the cell stored is the next instruction, at 253. -/
theorem witness_store_then_fetch :
    let s := stackMachine 254 251 1 [(251, 0x45)]
    s.reg? 0 = some 1 ∧ (0 : Byte) ≠ 7 ∧ s.pc + advanceOf .PUSH s = pushAddr s ∧
      s.pc + advanceOf .PUSH s ≤ 253 := by decide

/-- BootGivesResetValues (an image that fills memory) and OversizedImageIsRefused. -/
theorem witness_images : Memory.wf (Memory.write [] 255 7) ∧ Params.wf Launch.bare.params ∧ (List.replicate 256 (1 : Byte)).length ≤ 256 ∧
    256 < (List.replicate 257 (1 : Byte)).length := by
  refine ⟨by decide, by decide, ?_, ?_⟩ <;> rw [List.length_replicate]
  omega

/-- StepKeepsInvariant and RunsKeepInvariantAndExtendTraces: a state of the invariant with a next state, at the last
`pc` a run can reach a fetch from, and one step of it. -/
theorem witness_invariant_step :
    let s := stackMachine 0xF4 253 0 [(253, 0x47)]
    Inv s ∧ (∃ t, step s = .next t) ∧ ∃ t, Host.Core.run Sys2Proof.core 1 s = .next t :=
  ⟨⟨by decide, by decide, rfl, fun _ e => (nomatch e), by decide⟩, ⟨_, rfl⟩, ⟨_, rfl⟩⟩

end Sys2Proof.Tests
end

/-! What an instruction can do, said once: `ExecEffect i s t` lists every next state `exec i s` can answer,
and `exec_next_effect` is its inversion.  A statement about all instructions is a case analysis of it. -/

namespace Sys2Proof.Machine

/-! ### The latched state differs from its own only in the latches (R42) -/

@[simp] theorem latched_regs (s : State) : (latched s).regs = s.regs := rfl
@[simp] theorem latched_pc (s : State) : (latched s).pc = s.pc := rfl
@[simp] theorem latched_fl (s : State) : (latched s).fl = s.fl := rfl
@[simp] theorem latched_mem (s : State) : (latched s).mem = s.mem := rfl
@[simp] theorem latched_run (s : State) : (latched s).run = s.run := rfl
@[simp] theorem latched_out (s : State) : (latched s).out = s.out := rfl
@[simp] theorem latched_dg (s : State) : (latched s).dg = s.dg := rfl
@[simp] theorem latched_params (s : State) : (latched s).params = s.params := rfl
@[simp] theorem latched_draws (s : State) : (latched s).draws = s.draws := rfl
@[simp] theorem latched_reg? (s : State) (i : Byte) : (latched s).reg? i = s.reg? i := rfl
@[simp] theorem latched_sp (s : State) : (latched s).sp = s.sp := rfl

/-! ### The effects -/

/-- The ways an instruction `i` completes in a state `s`, each with its next state.  `result` serves the two-operand ALU
instructions (the ones with two register operands), `taken` and `untaken` serve JEQ and JNE. -/
inductive ExecEffect : Instr → State → State → Prop where
  | hlt {s} : ExecEffect .hlt s (advance .HLT (halt .hlt s))
  | ret {s} : ExecEffect .ret s (loadPc (Memory.read s.mem (popAddr s)) (incSp s))
  | push {s a v} (ha : (decSp s).reg? a = some v) :
      ExecEffect (.push a) s (advance .PUSH ((decSp s).setByte (pushAddr s) v))
  | pop {s a} (ha : validReg a) :
      ExecEffect (.pop a) s (advance .POP (incSp (s.setReg a (Memory.read s.mem (popAddr s)))))
  | prn {s a A} (ha : s.reg? a = some A) : ExecEffect (.prn a) s (advance .PRN (emit A s))
  | call {s a A} (ha : (decSp s).reg? a = some A) :
      ExecEffect (.call a) s (loadPc A ((decSp s).setByte (pushAddr s) (BitVec.ofNat 8 (s.pc + 2))))
  | jmp {s a A} (ha : s.reg? a = some A) : ExecEffect (.jmp a) s (loadPc A s)
  | taken {i s a A} (hm : i.mnemonic = .JEQ ∨ i.mnemonic = .JNE) (hi : i.regOperands = [a])
      (ht : branchTaken i s.fl = true) (ha : s.reg? a = some A) : ExecEffect i s (loadPc A s)
  | untaken {i s a} (hm : i.mnemonic = .JEQ ∨ i.mnemonic = .JNE) (hi : i.regOperands = [a])
      (ht : branchTaken i s.fl = false) (ha : s.params.branchChecksUntaken = true → validReg a) :
      ExecEffect i s (advance i.mnemonic s)
  | not {s a A} (ha : s.reg? a = some A) :
      ExecEffect (.not a) s (advance .NOT (s.setReg a (BitVec.ofNat 8 (255 - A.toNat))))
  | ldi {s a imm} (ha : validReg a) : ExecEffect (.ldi a imm) s (advance .LDI (s.setReg a imm))
  | result {i s a b A B v} (hi : i.regOperands = [a, b]) (ha : s.reg? a = some A) (hb : s.reg? b = some B)
      (hv : alu i.mnemonic A B = some (.result v)) :
      ExecEffect i s (advance i.mnemonic (s.setReg a (BitVec.ofNat 8 v)))
  | flags {s a b A B} (ha : s.reg? a = some A) (hb : s.reg? b = some B) :
      ExecEffect (.cmp a b) s (advance .CMP (writeFl (cmpFlags A B) s))
  | zeroDivisor {s a b A} (ha : s.reg? a = some A) (hb : s.reg? b = some 0) :
      ExecEffect (.mod a b) s (haltModZero s)

variable {i : Instr} {s t : State}

/-- An answer that faults on an index above 7 is a next state only where the index names a register. -/
theorem valid_of_next {r : Result} {f : Fault} {a : Byte} (hbad : ¬ validReg a → r = .fault f) (h : r = .next t) :
    validReg a :=
  Decidable.byContradiction fun ha => nomatch (hbad ha).symm.trans h

/-- The same for an answer computed from the register's value in a state `u`. -/
theorem reg?_of_next {r : Result} {f : Fault} {a : Byte} {u : State} {g : Byte → State}
    (hok : ∀ {A}, u.reg? a = some A → r = .next (g A)) (hbad : ¬ validReg a → r = .fault f) (h : r = .next t) :
    ∃ A, u.reg? a = some A ∧ g A = t := by
  obtain ⟨A, hA⟩ := reg?_of_valid u (valid_of_next hbad h)
  exact ⟨A, hA, Host.Outcome.next.inj ((hok hA).symm.trans h)⟩

/-- A two-operand ALU instruction that completes read both its registers. -/
theorem regs_of_binaryAlu_next {op : Mnemonic} {a b : Byte} (h : binaryAlu op a b s = .next t) :
    ∃ A B, s.reg? a = some A ∧ s.reg? b = some B := by
  have ha := valid_of_next (binaryAlu_of_invalid_left op b s) h
  have hb := valid_of_next (binaryAlu_of_invalid_right op s ha) h
  obtain ⟨A, hA⟩ := reg?_of_valid s ha
  obtain ⟨B, hB⟩ := reg?_of_valid s hb
  exact ⟨A, B, hA, hB⟩

/-- The ALU writes a result, but for CMP, which writes flags, and MOD by zero (R101). -/
theorem alu_cases {op : Mnemonic} (hop : op.isAlu) (A B : Byte) :
    (∃ v, alu op A B = some (.result v)) ∨ op = .CMP ∨ (op = .MOD ∧ B = 0) := by
  cases op with
  | HLT | RET | PUSH | POP | PRN | CALL | JMP | JEQ | JNE | LDI => cases hop
  | CMP => exact .inr (.inl rfl)
  | MOD =>
    by_cases hB : B = 0
    · exact .inr (.inr ⟨rfl, hB⟩)
    · exact .inl ⟨_, by rw [alu, if_neg hB]⟩
  | ADD | MUL | AND | OR | XOR | NOT | SHL | SHR => exact .inl ⟨_, rfl⟩

/-- The instructions with two register operands are ALU instructions (R64, R81). -/
theorem isAlu_of_two_regOperands {a b : Byte} (hi : i.regOperands = [a, b]) : i.mnemonic.isAlu := by
  cases i <;> simp_all [Instr.regOperands, Instr.mnemonic, Mnemonic.isAlu]

theorem eq_cmp {a b : Byte} (hi : i.regOperands = [a, b]) (hm : i.mnemonic = .CMP) : i = .cmp a b := by
  cases i <;> simp_all [Instr.regOperands, Instr.mnemonic]

theorem eq_mod {a b : Byte} (hi : i.regOperands = [a, b]) (hm : i.mnemonic = .MOD) : i = .mod a b := by
  cases i <;> simp_all [Instr.regOperands, Instr.mnemonic]

/-- The effects of the two-operand ALU instructions (R94, R95, R122). -/
theorem ExecEffect.of_binaryAlu {a b : Byte} (hi : i.regOperands = [a, b])
    (h : binaryAlu i.mnemonic a b s = .next t) : ExecEffect i s t := by
  obtain ⟨A, B, hA, hB⟩ := regs_of_binaryAlu_next h
  rcases alu_cases (isAlu_of_two_regOperands hi) A B with ⟨v, hv⟩ | hm | ⟨hm, rfl⟩
  · cases (binaryAlu_result hA hB hv).symm.trans h
    exact .result hi hA hB hv
  · cases eq_cmp hi hm
    cases (execCmp_of_some hA hB).symm.trans h
    exact .flags hA hB
  · cases eq_mod hi hm
    cases (execMod_of_zero hA hB).symm.trans h
    exact .zeroDivisor hA hB

/-- The effects of JEQ and JNE (R85, R150, R152, R153). -/
theorem ExecEffect.of_branch {a : Byte} (hm : i.mnemonic = .JEQ ∨ i.mnemonic = .JNE) (hi : i.regOperands = [a])
    (h : finish (branch i.mnemonic (branchTaken i s.fl) a s) = .next t) : ExecEffect i s t := by
  rw [finish_eq_next] at h
  cases ht : branchTaken i s.fl with
  | true =>
    rw [ht] at h
    by_cases ha : validReg a
    · obtain ⟨A, hA⟩ := reg?_of_valid s ha
      cases (branch_taken_of_some i.mnemonic hA).symm.trans h
      exact .taken hm hi ht hA
    · cases (branch_taken_of_invalid i.mnemonic s ha).symm.trans h
  | false =>
    rw [ht] at h
    by_cases ha : s.params.branchChecksUntaken = true → validReg a
    · cases (branch_untaken i.mnemonic ha).symm.trans h
      exact .untaken hm hi ht ha
    · obtain ⟨hc, hna⟩ := Classical.not_imp.mp ha
      cases (branch_untaken_of_invalid i.mnemonic hc hna).symm.trans h

/-- An instruction that completes has one of its effects. -/
theorem exec_next_effect (h : exec i s = .next t) : ExecEffect i s t := by
  cases i with
  | hlt => cases h; exact .hlt
  | ret => cases (execRet_eq s).symm.trans h; exact .ret
  | push a =>
    obtain ⟨v, hv, rfl⟩ := reg?_of_next execPush_of_some (execPush_of_invalid s) h
    exact .push hv
  | pop a =>
    have ha := valid_of_next (execPop_of_invalid s) h
    cases (execPop_of_valid s ha).symm.trans h
    exact .pop ha
  | prn a =>
    obtain ⟨A, hA, rfl⟩ := reg?_of_next execPrn_of_some (execPrn_of_invalid s) h
    exact .prn hA
  | call a =>
    obtain ⟨A, hA, rfl⟩ := reg?_of_next execCall_of_some (execCall_of_invalid s) h
    exact .call hA
  | jmp a =>
    obtain ⟨A, hA, rfl⟩ := reg?_of_next execJmp_of_some (execJmp_of_invalid s) h
    exact .jmp hA
  | jeq a => exact .of_branch (.inl rfl) rfl h
  | jne a => exact .of_branch (.inr rfl) rfl h
  | not a =>
    obtain ⟨A, hA, rfl⟩ := reg?_of_next execNot_of_some (execNot_of_invalid s) h
    exact .not hA
  | ldi a imm =>
    have ha := valid_of_next (execLdi_of_invalid imm s) h
    cases (execLdi_of_valid imm s ha).symm.trans h
    exact .ldi ha
  | add | mul | mod | cmp | and | or | xor | shl | shr => exact .of_binaryAlu rfl h

end Sys2Proof.Machine

/-! Registers, FL and the traces: who writes each and what (file 10_state.md). -/

namespace Sys2Proof.Machine

variable {i : Instr} {s t : State}

/-! ### Registers (R23, R27, R28) -/

/-- A register write changes that register and nothing else. -/
theorem frame_setReg (s : State) {a : Byte} (v : Byte) (ha : validReg a) : Frame [a] [] s (s.setReg a v) := by
  have hregs : SameRegsExcept [a] s (s.setReg a v) := fun r hr => by
    rw [reg?_set s a v r ha, if_neg (mt List.mem_singleton.mpr hr)]
  exact ⟨rfl, hregs, fun _ _ => rfl, ⟨rfl, rfl⟩, rfl, rfl, rfl, rfl⟩

/-- Settles O5: an index byte is valid or not, and each access has its law for both. -/
theorem registerHoldsWhatWasWritten : Obligations.RegisterHoldsWhatWasWritten := by
  refine fun s i v => ⟨fun hle => ?_, fun hgt => ?_⟩
  · have hi : validReg i := Nat.lt_succ_of_le hle
    obtain ⟨old, hold⟩ := reg?_of_valid s hi
    have hnew : (s.setReg i v).reg? i = some v := by rw [reg?_set s i v i hi, if_pos rfl]
    exact ⟨s.setReg i v, old, readReg_of_some hold, hold, writeReg_of_valid s v hi, readReg_of_some hnew, rfl,
      frame_setReg s v hi⟩
  · have hi : ¬ validReg i := Nat.not_lt.mpr hgt
    exact ⟨readReg_of_invalid s hi, writeReg_of_invalid s v hi⟩

/-! ### FL (R34) -/

/-- The compare function has three values (R106). -/
theorem cmpFlags_cases (A B : Byte) : cmpFlags A B = 1 ∨ cmpFlags A B = 2 ∨ cmpFlags A B = 4 := by
  unfold cmpFlags
  split
  · exact .inl rfl
  · split
    · exact .inr (.inl rfl)
    · exact .inr (.inr rfl)

/-- CMP is not among the operations that write an ALU result (R95). -/
theorem ne_CMP_of_alu_result {op : Mnemonic} {A B : Byte} {v : Nat} (h : alu op A B = some (.result v)) :
    op ≠ .CMP := by
  rintro rfl
  simp [alu, AluOut.flags, AluOut.result] at h

/-- FL after an instruction: as before, or what CMP computed (R34). -/
theorem ExecEffect.fl_cases (h : ExecEffect i s t) :
    (i.mnemonic ≠ .CMP ∧ t.fl = s.fl) ∨ ∃ a b A B, i = .cmp a b ∧ t.fl = cmpFlags A B := by
  cases h with
  | flags ha hb => exact .inr ⟨_, _, _, _, rfl, rfl⟩
  | result _ _ _ hv => exact .inl ⟨ne_CMP_of_alu_result hv, rfl⟩
  | taken hm | untaken hm => exact .inl ⟨by rcases hm with hm | hm <;> simp [hm], rfl⟩
  | hlt | ret | push | pop | prn | call | jmp | not | ldi | zeroDivisor =>
    exact .inl ⟨by simp [Instr.mnemonic], rfl⟩

/-- Settles O29, by the cases of an instruction's effect. -/
theorem onlyCmpWritesFl : Obligations.OnlyCmpWritesFl := by
  refine ⟨fun i s t h => ?_, fun s t h => ?_⟩
  · rcases (exec_next_effect h).fl_cases with ⟨hm, hfl⟩ | ⟨a, b, A, B, rfl, hfl⟩
    · exact ⟨fun _ => hfl, fun hc => absurd hc hm⟩
    · exact ⟨fun hm => absurd rfl hm, fun _ => hfl ▸ cmpFlags_cases A B⟩
  · rcases step_next_cases h with ⟨-, rfl⟩ | ⟨-, -, ⟨i, u, hi, hu, rfl⟩ | ⟨ir, -, rfl⟩⟩
    · exact .inl rfl
    · rcases (exec_next_effect hu).fl_cases with ⟨-, hfl⟩ | ⟨a, b, A, B, rfl, hfl⟩
      · exact .inl hfl
      · rw [retire_fl, hfl]
        exact .inr ⟨⟨a, b, hi⟩, cmpFlags_cases A B⟩
    · exact .inl rfl

/-! ### The traces (R39, R172) -/

/-- `out` after an instruction: as before, or with the byte of a PRN. -/
theorem ExecEffect.out_cases (h : ExecEffect i s t) :
    t.out = s.out ∨ ∃ a A, i = .prn a ∧ s.reg? a = some A ∧ t.out = s.out ++ [A] := by
  cases h with
  | prn ha => exact .inr ⟨_, _, rfl, ha, rfl⟩
  | hlt | ret | push | pop | call | jmp | taken | untaken | not | ldi | result | flags | zeroDivisor => exact .inl rfl

/-- `dg` after an instruction: as before, or with the record of a MOD by zero, which holds the map's byte. -/
theorem ExecEffect.dg_cases (h : ExecEffect i s t) :
    t.dg = s.dg ∨ ∃ a b, i = .mod a b ∧ s.reg? b = some 0 ∧
      t.dg = s.dg ++ [.modByZero (s.params.opcodeMap.byte .MOD) s.pc] := by
  cases h with
  | zeroDivisor _ hb => exact .inr ⟨_, _, rfl, hb, rfl⟩
  | hlt | ret | push | pop | prn | call | jmp | taken | untaken | not | ldi | result | flags => exact .inl rfl

/-- The opcode byte at `pc` is the map's byte for the instruction fetched there, under any map. -/
theorem read_pc_of_fetchedOp (h : fetchedOp s = .known i) :
    Memory.read s.mem s.pc = s.params.opcodeMap.byte i.mnemonic :=
  (byte_of_decode h).1

/-- Settles O44, by the cases of a step and of an instruction's effect; the byte a MOD by zero records is the one
fetched. -/
theorem tracesGrowOnlyByTheirInstructions : Obligations.TracesGrowOnlyByTheirInstructions := by
  refine ⟨fun l => ⟨rfl, rfl⟩, fun s t h => ?_⟩
  rcases step_next_cases h with ⟨-, rfl⟩ | ⟨-, -, ⟨i, u, hi, hu, rfl⟩ | ⟨ir, hir, rfl⟩⟩
  · exact ⟨.inl rfl, .inl rfl⟩
  · have hout := (exec_next_effect hu).out_cases
    have hdg := (exec_next_effect hu).dg_cases
    refine ⟨hout.imp_right ?_, hdg.imp_right fun hmod => .inr ?_⟩
    · rintro ⟨a, A, rfl, hA, ho⟩
      exact ⟨a, A, hi, hA, ho⟩
    · obtain ⟨a, b, rfl, hb, hd⟩ := hmod
      rw [read_pc_of_fetchedOp hi]
      exact ⟨a, b, hi, hb, hd⟩
  · exact ⟨.inl rfl, .inr (.inl ⟨ir, hir, rfl⟩)⟩

end Sys2Proof.Machine

/-! Memory accesses: the byte read, the byte stored, and the range (file 20_memory.md). -/

namespace Sys2Proof.Machine

/-- A byte stored changes that cell and nothing else (R48). -/
theorem frame_setByte (s : State) (a : Nat) (v : Byte) : Frame [] [a] s (s.setByte a v) := by
  have hmem : SameMemExcept [a] s (s.setByte a v) := fun _ hb =>
    Memory.read_write_other s.mem v (mt List.mem_singleton.mpr hb)
  exact ⟨rfl, fun _ _ => rfl, hmem, ⟨rfl, rfl⟩, rfl, rfl, rfl, rfl⟩

/-- A byte stored in range is the byte read back (R47, R48). -/
theorem memRead_setByte_same (s : State) {a : Nat} (v : Byte) (h : a < 256) :
    memRead (s.setByte a v) a = .ok v := by
  rw [memRead_of_lt _ h, State.setByte_mem, Memory.read_write_same]

/-- Settles O6: an address is in range or not, and each access has its law for both. -/
theorem memoryAccessIsRangeChecked : Obligations.MemoryAccessIsRangeChecked := by
  refine fun s a v => ⟨fun hle => ?_, fun hgt => ?_⟩
  · have ha : a < 256 := Nat.lt_succ_of_le hle
    exact ⟨memRead_of_lt s ha, s.setByte a v, memWrite_of_lt s v ha, memRead_setByte_same s v ha, rfl,
      frame_setByte s a v⟩
  · exact ⟨memRead_of_ge s hgt, memWrite_of_ge s v hgt⟩

end Sys2Proof.Machine

/-! The execution cycle: what a step does with a byte that is no operation's (file 40_execution_cycle.md). -/

namespace Sys2Proof.Machine

/-- A byte outside the map and outside UNNAMED_OPCODES decodes as unknown, whatever follows it (R80). -/
theorem decode_of_unknown {p : Params} {w : Window} (hmap : ∀ m, w.ir ≠ p.opcodeMap.byte m)
    (hnamed : w.ir ∉ p.unnamedOpcodes) : decode p w = .unknown w.ir := by
  rw [decode_eq, knownOp_eq_none.mpr hmap]
  exact if_neg hnamed

/-- The step of a running machine that fetches an unknown opcode is the skip of it (R77, R83). -/
theorem step_of_fetched_unknown {s : State} {ir : Byte} (hrun : s.run = .running) (hpc : s.pc ≤ 253)
    (hop : fetchedOp s = .unknown ir) : step s = .next (retire (skipUnknown ir (latched s))) := by
  rw [step_of_running hrun, runCycle_of_le hpc, hop]
  rfl

/-- Settles O36: the byte at `pc` decodes as unknown, so the step is the skip, which writes `dg`, `pc` and the
latches alone. -/
theorem unknownOpcodeIsSkipped : Obligations.UnknownOpcodeIsSkipped := by
  intro s hrun hpc hmap hnamed
  have hop : fetchedOp s = .unknown (Memory.read s.mem s.pc) := decode_of_unknown (w := windowAt s) hmap hnamed
  exact ⟨_, step_of_fetched_unknown hrun hpc hop, rfl, rfl, hrun, rfl, rfl, rfl, rfl, fun _ _ => rfl, fun _ _ => rfl⟩

end Sys2Proof.Machine

/-! The ALU instructions: exact results mod 256, CMP's flag and the zero divisor of MOD (file 41_alu.md). -/

namespace Sys2Proof.Machine

variable {i : Instr} {s t : State}

/-! ### Instructions that write one register and advance (R85, R95) -/

/-- An advance of `pc` is outside every frame (R32). -/
theorem Frame.advance {ds : List Byte} {addrs : List Nat} (op : Mnemonic) (h : Frame ds addrs s t) :
    Frame ds addrs s (advance op t) := h

/-- An instruction that writes one register, which exists, and advances. -/
theorem writesOneReg_of_setReg {r v : Byte} (hr : validReg r)
    (h : exec i s = .next (advance i.mnemonic (s.setReg r v))) : WritesOneReg i s r v := by
  have hread : (s.setReg r v).reg? r = some v := by rw [reg?_set s r v r hr, if_pos rfl]
  exact ⟨_, h, hread, rfl, (frame_setReg s v hr).advance i.mnemonic⟩

/-- A two-operand ALU instruction with an exact result `v` leaves `v` mod 256 in register A (R94, R95, R96). -/
theorem writesOneReg_of_alu_result {a b A B : Byte} {v : Nat} (hi : exec i s = binaryAlu i.mnemonic a b s)
    (ha : s.reg? a = some A) (hb : s.reg? b = some B) (hv : alu i.mnemonic A B = some (.result v)) :
    WritesOneReg i s a (BitVec.ofNat 8 (v % 256)) := by
  have hmod : BitVec.ofNat 8 (v % 256) = BitVec.ofNat 8 v := BitVec.eq_of_toNat_eq (Nat.mod_mod v 256)
  rw [hmod]
  exact writesOneReg_of_setReg (valid_of_reg? ha) (hi.trans (binaryAlu_result ha hb hv))

/-- SHL's exact result as a shift of the unsigned value by the whole amount (R116, R118). -/
theorem alu_SHL (A B : Byte) : alu .SHL A B = some (.result (A.toNat <<< B.toNat)) := by
  rw [Nat.shiftLeft_eq]; rfl

/-- SHR's exact result as a shift of the unsigned value by the whole amount (R116, R120). -/
theorem alu_SHR (A B : Byte) : alu .SHR A B = some (.result (A.toNat >>> B.toNat)) := by
  rw [Nat.shiftRight_eq_div_pow]; rfl

/-- Settles O10: each of the seven operations is a two-operand ALU instruction whose row of R101 is its exact result. -/
theorem aluResultsAreExactModulo256 : Obligations.AluResultsAreExactModulo256 := fun s a b A B ha hb =>
  have writes {i : Instr} {v : Nat} (hi : exec i s = binaryAlu i.mnemonic a b s)
      (hv : alu i.mnemonic A B = some (.result v)) : WritesOneReg i s a (BitVec.ofNat 8 (v % 256)) :=
    writesOneReg_of_alu_result hi ha hb hv
  ⟨writes rfl rfl, writes rfl rfl, writes rfl rfl, writes rfl rfl, writes rfl rfl, writes rfl (alu_SHL A B),
    writes rfl (alu_SHR A B)⟩

/-! ### CMP (R106) -/

theorem cmpFlags_of_eq {A B : Byte} (h : A.toNat = B.toNat) : cmpFlags A B = 1 := if_pos (BitVec.eq_of_toNat_eq h)

theorem cmpFlags_of_gt {A B : Byte} (h : B.toNat < A.toNat) : cmpFlags A B = 2 :=
  have hne : A ≠ B := ne_of_apply_ne BitVec.toNat (Nat.ne_of_gt h)
  (if_neg hne).trans (if_pos h)

theorem cmpFlags_of_lt {A B : Byte} (h : A.toNat < B.toNat) : cmpFlags A B = 4 :=
  have hne : A ≠ B := ne_of_apply_ne BitVec.toNat (Nat.ne_of_lt h)
  (if_neg hne).trans (if_neg (Nat.lt_asymm h))

/-- A write of FL changes no register, no memory, no trace and no control field (R34). -/
theorem frameExceptFl_writeFl (s : State) (v : Byte) : FrameExceptFl [] [] s (writeFl v s) :=
  ⟨fun _ _ => rfl, fun _ _ => rfl, ⟨rfl, rfl⟩, rfl, rfl, rfl, rfl⟩

/-- Settles O12: CMP writes the compare function's value to FL and advances, and the function has one value for each
order of its operands. -/
theorem cmpSetsExactlyOneFlag : Obligations.CmpSetsExactlyOneFlag := fun s _ _ A B ha hb =>
  ⟨_, execCmp_of_some ha hb, rfl, frameExceptFl_writeFl s (cmpFlags A B), cmpFlags_of_eq, cmpFlags_of_gt, cmpFlags_of_lt⟩

/-! ### MOD by zero (R122) -/

/-- Settles O14: MOD by zero answers the zero-divisor halt, which writes the run state, `dg`, `pc` and the draw
counter alone. -/
theorem modByZeroHaltsAndWritesNothing : Obligations.ModByZeroHaltsAndWritesNothing := fun s _ _ _ ha hb =>
  ⟨_, execMod_of_zero ha hb, haltModZero_run s, haltModZero_dg s, fun r _ => haltModZero_reg? s r, fun _ _ => rfl,
    haltModZero_fl s, haltModZero_out s, haltModZero_latch s, haltModZero_params s⟩

end Sys2Proof.Machine

/-! LDI, PRN, and a PUSH undone by a POP (file 42_register_stack.md). -/

namespace Sys2Proof.Machine

variable {i : Instr} {s t u : State}

/-! ### Encodings under every map that agrees with the spec (R64, R67) -/

/-- Every operation but NOT is encoded as its opcode byte and its operands. -/
theorem encode_of_ne_NOT {om : OpcodeMap} (hw : om.wf) (h : i.mnemonic ≠ .NOT) :
    encode om i = om.byte i.mnemonic :: i.operandBytes :=
  encode_eq (hw.operandCount_of_ne_NOT h)

/-- LDI's byte is the source's (R67), so its encoding is the same under every such map. -/
theorem encode_ldi {om : OpcodeMap} (hw : om.wf) (a imm : Byte) : encode om (.ldi a imm) = [0x82, a, imm] := by
  have ⟨_, _, _, hbyte, _⟩ := hw
  calc encode om (.ldi a imm) = [om.LDI, a, imm] := encode_of_ne_NOT hw nofun
    _ = [0x82, a, imm] := by rw [hbyte]

/-- PRN's byte is the source's too. -/
theorem encode_prn {om : OpcodeMap} (hw : om.wf) (a : Byte) : encode om (.prn a) = [0x47, a] := by
  have ⟨_, _, hbyte, _⟩ := hw
  calc encode om (.prn a) = [om.PRN, a] := encode_of_ne_NOT hw nofun
    _ = [0x47, a] := by rw [hbyte]

/-! ### LDI and PRN (R126, R129) -/

/-- Settles O15: LDI writes its immediate to a register that exists and rejects any other index. -/
theorem ldiLoadsImmediate : Obligations.LdiLoadsImmediate := by
  refine fun s a imm => ⟨fun om hw => encode_ldi hw a imm, fun hw => hw.length_of_ne_NOT (by decide), fun hle => ?_,
    fun hgt => ?_⟩
  · have ha : validReg a := Nat.lt_succ_of_le hle
    exact writesOneReg_of_setReg ha (execLdi_of_valid imm s ha)
  · exact execLdi_of_invalid imm s (Nat.not_lt.mpr hgt)

/-- Settles O16: PRN of a register that exists is `emit` and the advance, which write `out` and `pc` alone. -/
theorem prnEmitsRegister : Obligations.PrnEmitsRegister := by
  refine fun s a A => ⟨fun om hw => encode_prn hw a, fun hw => hw.length_of_ne_NOT (by decide), fun hA => ?_,
    fun hgt => execPrn_of_invalid s (Nat.not_lt.mpr hgt)⟩
  exact ⟨_, execPrn_of_some hA, rfl, rfl, rfl, fun _ _ => rfl, fun _ _ => rfl, rfl, rfl, rfl, rfl, rfl⟩

/-! ### Frames of changes made one after the other -/

/-- What two changes leave unchanged: all but what one of them names. -/
theorem Frame.trans {ds es : List Byte} {as bs : List Nat} (h : Frame ds as s t) (h' : Frame es bs t u) :
    Frame (ds ++ es) (as ++ bs) s u := by
  obtain ⟨hfl, hregs, hmem, ⟨hout, hdg⟩, hrun, hlatch, hparams, hdraws⟩ := h
  obtain ⟨hfl', hregs', hmem', ⟨hout', hdg'⟩, hrun', hlatch', hparams', hdraws'⟩ := h'
  have hregsU : SameRegsExcept (ds ++ es) s u := fun r hr => by
    obtain ⟨hd, he⟩ := not_or.mp (mt List.mem_append.mpr hr)
    exact (hregs' r he).trans (hregs r hd)
  have hmemU : SameMemExcept (as ++ bs) s u := fun c hc => by
    obtain ⟨ha, hb⟩ := not_or.mp (mt List.mem_append.mpr hc)
    exact (hmem' c hb).trans (hmem c ha)
  exact ⟨hfl'.trans hfl, hregsU, hmemU, ⟨hout'.trans hout, hdg'.trans hdg⟩, hrun'.trans hrun, hlatch'.trans hlatch,
    hparams'.trans hparams, hdraws'.trans hdraws⟩

/-- Registers that hold again what they held need no mention in a frame. -/
theorem Frame.of_regs_restored {ds : List Byte} {as : List Nat} (h : Frame ds as s t)
    (hds : ∀ r ∈ ds, t.reg? r = s.reg? r) : Frame [] as s t := by
  obtain ⟨hfl, hregs, hrest⟩ := h
  have hall : SameRegsExcept [] s t := fun r _ =>
    (Decidable.em (r ∈ ds)).elim (hds r) (hregs r)
  exact ⟨hfl, hall, hrest⟩

/-- A write of SP changes register 7 and nothing else (R24). -/
theorem frame_setSp (s : State) (v : Byte) : Frame [7] [] s (s.setSp v) := by
  have hregs : SameRegsExcept [7] s (s.setSp v) := fun r hr =>
    (reg?_setSp s v r).trans (if_neg (mt List.mem_singleton.mpr hr))
  exact ⟨rfl, hregs, fun _ _ => rfl, ⟨rfl, rfl⟩, rfl, rfl, rfl, rfl⟩

/-! ### The stack (R131, R135, R138) -/

/-- The state once a byte is pushed, before `pc` moves: SP decremented, the byte stored at it. -/
def pushByte (s : State) (v : Byte) : State := (decSp s).setByte (pushAddr s) v

/-- The state once the top of the stack is popped into a register, before `pc` moves. -/
def popByte (a : Byte) (s : State) : State := incSp (s.setReg a (Memory.read s.mem (popAddr s)))

/-- PUSH of a register other than SP pushes what the register holds. -/
theorem exec_push_of_ne {a A : Byte} (hA : s.reg? a = some A) (h : a ≠ 7) :
    exec (.push a) s = .next (advance .PUSH (pushByte s A)) :=
  execPush_of_some ((reg?_decSp_of_ne s h).trans hA)

theorem exec_pop_of_valid {a : Byte} (s : State) (ha : validReg a) :
    exec (.pop a) s = .next (advance .POP (popByte a s)) :=
  execPop_of_valid s ha

/-- A push changes SP and the cell below the stack. -/
theorem frame_pushByte (s : State) (v : Byte) : Frame [7] [pushAddr s] s (pushByte s v) :=
  (frame_setSp s (s.sp - 1)).trans (frame_setByte (decSp s) (pushAddr s) v)

/-- A pop changes its register and SP. -/
theorem frame_popByte {a : Byte} (s : State) (ha : validReg a) : Frame [a, 7] [] s (popByte a s) :=
  (frame_setReg s (Memory.read s.mem (popAddr s)) ha).trans (frame_setSp _ _)

@[simp] theorem sp_pushByte (s : State) (v : Byte) : (pushByte s v).sp = s.sp - 1 := sp_decSp s

theorem read_pushByte (s : State) (v : Byte) : Memory.read (pushByte s v).mem (pushAddr s) = v :=
  Memory.read_write_same s.mem (pushAddr s) v

/-- The next pop reads the byte pushed. -/
theorem read_popAddr_pushByte (s : State) (v : Byte) :
    Memory.read (pushByte s v).mem (popAddr (pushByte s v)) = v := by
  have haddr : popAddr (pushByte s v) = pushAddr s := sp_decSp_toNat s
  rw [haddr, read_pushByte]

/-- A pop into a register other than SP moves SP up by one (R135). -/
theorem sp_popByte_of_ne {a : Byte} (s : State) (h : a ≠ 7) : (popByte a s).sp = s.sp + 1 := by
  rw [popByte, sp_incSp, sp_setReg_of_ne s _ h]

/-- A pop leaves the byte at SP in its register, where that is not SP. -/
theorem reg?_popByte_of_ne {a : Byte} (s : State) (ha : validReg a) (h : a ≠ 7) :
    (popByte a s).reg? a = some (Memory.read s.mem (popAddr s)) := by
  have hinc : (popByte a s).reg? a = (s.setReg a (Memory.read s.mem (popAddr s))).reg? a :=
    (reg?_incSp _ a).trans (if_neg h)
  rw [hinc, reg?_set _ _ _ _ ha, if_pos rfl]

/-! ### A push undone by a pop into the same register (R134) -/

/-- The register is given back the byte it gave. -/
theorem reg?_popByte_pushByte {a A : Byte} (hA : s.reg? a = some A) (h : a ≠ 7) :
    (popByte a (pushByte s A)).reg? a = s.reg? a := by
  rw [reg?_popByte_of_ne _ (valid_of_reg? hA) h, read_popAddr_pushByte, hA]

theorem sp_popByte_pushByte {a : Byte} (s : State) (v : Byte) (h : a ≠ 7) :
    (popByte a (pushByte s v)).sp = s.sp := by
  rw [sp_popByte_of_ne _ h, sp_pushByte, BitVec.sub_add_cancel]

/-- Each register the two write ends as it was, so only the cell below the stack differs. -/
theorem frame_popByte_pushByte {a A : Byte} (hA : s.reg? a = some A) (h : a ≠ 7) :
    Frame [] [pushAddr s] s (popByte a (pushByte s A)) := by
  have hboth : Frame [7, a, 7] [pushAddr s] s (popByte a (pushByte s A)) :=
    (frame_pushByte s A).trans (frame_popByte _ (valid_of_reg? hA))
  have hreg : (popByte a (pushByte s A)).reg? a = s.reg? a := reg?_popByte_pushByte hA h
  have hsp : (popByte a (pushByte s A)).reg? 7#8 = s.reg? 7#8 := by
    rw [reg?_seven, reg?_seven, sp_popByte_pushByte s A h]
  exact hboth.of_regs_restored (by simp [hreg, hsp])

/-- Settles O19: the PUSH and the POP are a push and a pop of one byte, and the advances of `pc` are outside the frame. -/
theorem pushThenPopRestores : Obligations.PushThenPopRestores := fun s _ A hA hne =>
  ⟨_, _, exec_push_of_ne hA hne, exec_pop_of_valid _ (valid_of_reg? hA), (reg?_popByte_pushByte hA hne).trans hA,
    sp_popByte_pushByte s A hne, read_pushByte s A, ((frame_popByte_pushByte hA hne).advance .PUSH).advance .POP⟩

end Sys2Proof.Machine

/-! Control flow: a CALL undone by a RET (file 43_control_flow.md). -/

namespace Sys2Proof.Machine

variable {s : State}

/-- The step of a running machine that fetches an instruction which completes is its effect, with the latches emptied
(R77, R78). -/
theorem step_of_fetched_known {i : Instr} {u : State} (hop : fetchedOp s = .known i) (hrun : s.run = .running)
    (hpc : s.pc ≤ 253) (hexec : exec i (latched s) = .next u) : step s = .next (retire u) := by
  rw [step_of_running hrun, runCycle_of_le hpc, hop]
  exact congrArg retireResult hexec

/-- The return address CALL pushes (R141). -/
def returnAddress (s : State) : Byte := BitVec.ofNat 8 (s.pc + 2)

/-- The return address fits a byte where a fetch can start (R79, R142). -/
theorem returnAddress_toNat (hpc : s.pc ≤ 253) : (returnAddress s).toNat = s.pc + 2 :=
  (byte_ofNat_toNat (s.pc + 2)).trans (Nat.mod_eq_of_lt (by omega))

/-- CALL of a register other than SP pushes the return address and jumps to what the register holds. -/
theorem exec_call_of_ne {a A : Byte} (hA : s.reg? a = some A) (h : a ≠ 7) :
    exec (.call a) s = .next (loadPc A (pushByte s (returnAddress s))) :=
  execCall_of_some ((reg?_decSp_of_ne s h).trans hA)

/-- RET jumps to the byte at SP and pops it (R145). -/
theorem exec_ret_of_top {v : Byte} (h : Memory.read s.mem (popAddr s) = v) :
    exec .ret s = .next (loadPc v (incSp s)) :=
  h ▸ execRet_eq s

/-- The increment gives SP back the value it had before a push (R141, R145). -/
theorem sp_incSp_pushByte (s : State) (v : Byte) : (incSp (pushByte s v)).sp = s.sp := by
  rw [sp_incSp, sp_pushByte, BitVec.sub_add_cancel]

/-- Settles O22: the byte at SP when the RET is fetched is the return address the CALL pushed. -/
theorem callThenRetResumes : Obligations.CallThenRetResumes := by
  intro s a A hrun hpc hcall hA hne
  have hcallStep := step_of_fetched_known hcall hrun hpc (exec_call_of_ne (s := latched s) hA hne)
  refine ⟨_, hcallStep, rfl, fun hpcRet hret => ?_⟩
  have htop := read_popAddr_pushByte (latched s) (returnAddress s)
  have hretStep := step_of_fetched_known hret hrun hpcRet (exec_ret_of_top htop)
  exact ⟨_, hretStep, returnAddress_toNat hpc, sp_incSp_pushByte (latched s) (returnAddress s)⟩

end Sys2Proof.Machine

/-! Aborts: which errors an instruction and a step can raise (file 60_exceptions.md). -/

namespace Sys2Proof.Machine

variable {s : State}

/-! ### Instructions -/

/-- The answers of an instruction in the state `s`: it completes, or it raises InvalidRegister (R162). -/
def CompletesOrRejects (s : State) (r : Result) : Prop :=
  (∃ t, r = .next t) ∨ ∃ a, r = .fault (.invalidRegister a s.context)

/-- An answer that is known both for an index that names a register and for one that does not. -/
theorem CompletesOrRejects.of_valid {r : Result} {a : Byte} (hok : validReg a → ∃ t, r = .next t)
    (hbad : ¬ validReg a → r = .fault (.invalidRegister a s.context)) : CompletesOrRejects s r := by
  by_cases ha : validReg a
  · exact .inl (hok ha)
  · exact .inr ⟨a, hbad ha⟩

/-- The same for an answer computed from the register's value in a state `u`. -/
theorem CompletesOrRejects.of_reg? {r : Result} {a : Byte} {u : State} {g : Byte → State}
    (hok : ∀ {A}, u.reg? a = some A → r = .next (g A))
    (hbad : ¬ validReg a → r = .fault (.invalidRegister a s.context)) : CompletesOrRejects s r := by
  refine .of_valid (fun ha => ?_) hbad
  obtain ⟨A, hA⟩ := reg?_of_valid u ha
  exact ⟨g A, hok hA⟩

/-- `alu_8bit` performs the ten ALU operations, so once their registers are read they complete (R100, R101). -/
theorem binaryAlu_completesOrRejects {op : Mnemonic} (hop : op.isAlu) (a b : Byte) (s : State) :
    CompletesOrRejects s (binaryAlu op a b s) := by
  by_cases ha : validReg a
  case neg => exact .inr ⟨a, binaryAlu_of_invalid_left op b s ha⟩
  by_cases hb : validReg b
  case neg => exact .inr ⟨b, binaryAlu_of_invalid_right op s ha hb⟩
  obtain ⟨A, hA⟩ := reg?_of_valid s ha
  obtain ⟨B, hB⟩ := reg?_of_valid s hb
  rcases alu_cases hop A B with ⟨v, hv⟩ | rfl | ⟨rfl, rfl⟩
  · exact .inl ⟨_, binaryAlu_result hA hB hv⟩
  · exact .inl ⟨_, execCmp_of_some hA hB⟩
  · exact .inl ⟨_, execMod_of_zero hA hB⟩

/-- JEQ and JNE raise nothing but InvalidRegister, taken or not (R150, R153). -/
theorem branch_completesOrRejects (op : Mnemonic) (taken : Bool) (a : Byte) (s : State) :
    CompletesOrRejects s (finish (branch op taken a s)) := by
  cases taken with
  | true =>
    exact .of_reg? (fun hA => congrArg finish (branch_taken_of_some op hA))
      (fun ha => congrArg finish (branch_taken_of_invalid op s ha))
  | false =>
    by_cases ha : s.params.branchChecksUntaken = true → validReg a
    · exact .inl ⟨_, congrArg finish (branch_untaken op ha)⟩
    · obtain ⟨hc, hna⟩ := Classical.not_imp.mp ha
      exact .inr ⟨a, congrArg finish (branch_untaken_of_invalid op hc hna)⟩

/-- Every instruction completes or raises InvalidRegister (R162). -/
theorem exec_completesOrRejects (i : Instr) (s : State) : CompletesOrRejects s (exec i s) := by
  cases i with
  | hlt => exact .inl ⟨_, rfl⟩
  | ret => exact .inl ⟨_, execRet_eq s⟩
  | push a => exact .of_reg? execPush_of_some (execPush_of_invalid s)
  | pop a => exact .of_valid (fun ha => ⟨_, execPop_of_valid s ha⟩) (execPop_of_invalid s)
  | prn a => exact .of_reg? execPrn_of_some (execPrn_of_invalid s)
  | call a => exact .of_reg? execCall_of_some (execCall_of_invalid s)
  | jmp a => exact .of_reg? execJmp_of_some (execJmp_of_invalid s)
  | jeq a => exact branch_completesOrRejects .JEQ (flagE s.fl) a s
  | jne a => exact branch_completesOrRejects .JNE (!flagE s.fl) a s
  | not a => exact .of_reg? execNot_of_some (execNot_of_invalid s)
  | ldi a imm => exact .of_valid (fun ha => ⟨_, execLdi_of_valid imm s ha⟩) (execLdi_of_invalid imm s)
  | add | mul | mod | cmp | and | or | xor | shl | shr => exact binaryAlu_completesOrRejects rfl _ _ s

/-- The only error an instruction raises is InvalidRegister, in the context of its state (R162, R163). -/
theorem exec_fault_eq {i : Instr} {f : Fault} (h : exec i s = .fault f) : ∃ a, f = .invalidRegister a s.context := by
  rcases exec_completesOrRejects i s with ⟨t, ht⟩ | ⟨a, ha⟩
  · exact nomatch ht.symm.trans h
  · exact ⟨a, Host.Outcome.fault.inj (h.symm.trans ha)⟩

/-! ### Steps -/

theorem retireResult_eq_fault {r : Result} {f : Fault} : retireResult r = .fault f ↔ r = .fault f := by
  cases r <;> simp

/-- Only an instruction raises an error after the fetch: an unknown opcode is skipped, an unnamed one refused (R83, R84). -/
theorem dispatch_eq_fault {d : Decoded} {f : Fault} :
    dispatch d s = .fault f ↔ ∃ i, d = .known i ∧ exec i s = .fault f := by
  cases d <;> simp [dispatch]

/-- A step that aborts: the machine was running, and its fetch ran out of range or the instruction fetched raised the
error (R77, R79). -/
theorem step_fault_cases {f : Fault} (h : step s = .fault f) :
    s.run = .running ∧
    ((254 ≤ s.pc ∧ ∃ l, f = .outOfBounds (max 256 s.pc) { pc := s.pc, latch := l }) ∨
     (s.pc ≤ 253 ∧ ∃ i, fetchedOp s = .known i ∧ exec i (latched s) = .fault f)) := by
  by_cases hrun : s.run = .running
  case neg => exact nomatch (step_of_not_running hrun).symm.trans h
  rw [step_of_running hrun] at h
  by_cases hpc : s.pc ≤ 253
  · rw [runCycle_of_le hpc, retireResult_eq_fault, dispatch_eq_fault] at h
    exact ⟨hrun, .inr ⟨hpc, h⟩⟩
  · have hgt : 254 ≤ s.pc := by omega
    obtain ⟨l, hl⟩ := fetch_of_gt hgt
    simp only [runCycle, hl, Host.Outcome.fault.injEq] at h
    exact ⟨hrun, .inl ⟨hgt, l, h.symm⟩⟩

theorem exec_ne_unsupportedOperation (i : Instr) (s : State) (c : AbortContext) :
    exec i s ≠ .fault (.unsupportedOperation c) := fun h => by
  obtain ⟨a, ha⟩ := exec_fault_eq h
  cases ha

/-- Settles O41: an instruction raises InvalidRegister only, and a step the error of its fetch or of its instruction. -/
theorem unsupportedOperationIsUnreachable : Obligations.UnsupportedOperationIsUnreachable := by
  refine ⟨exec_ne_unsupportedOperation, fun s c h => ?_⟩
  obtain ⟨-, ⟨-, l, hl⟩ | ⟨-, i, -, hi⟩⟩ := step_fault_cases h
  · cases hl
  · exact exec_ne_unsupportedOperation i (latched s) c hi

end Sys2Proof.Machine

/-! Encoding: a window decodes to an instruction exactly when it begins with the bytes of it that decode reads
(file 30_encoding.md). -/

namespace Sys2Proof.Machine

variable {p : Params} {w : Window} {i : Instr}

/-! ### Decode and encode as one relation -/

/-- An operation and two bytes make the instruction whose operands are as many of them as its format holds (R64,
R66). -/
theorem assemble_eq_iff {m : Mnemonic} {x y : Byte} :
    assemble m x y = i ↔ i.mnemonic = m ∧ i.operandBytes = [x, y].take m.operands := by
  constructor
  · rintro rfl
    exact ⟨assemble_mnemonic m x y, by cases m <;> rfl⟩
  · rintro ⟨rfl, hops⟩
    cases i <;> simp_all [Instr.mnemonic, Instr.operandBytes, Mnemonic.operands, assemble]

/-- The bytes of an instruction that decode reads: the opcode byte and the operands. -/
theorem take_encode {om : OpcodeMap} (hw : om.wf) (i : Instr) :
    (encode om i).take (1 + i.mnemonic.operands) = om.byte i.mnemonic :: i.operandBytes :=
  (Laws.EncodeShape.of_any i om hw).2

/-- The first bytes of a window: the opcode byte, then some of the two others. -/
theorem take_bytes (w : Window) (n : Nat) : w.bytes.take (1 + n) = w.ir :: [w.opA, w.opB].take n := by
  rw [Nat.add_comm, Window.bytes, List.take_succ_cons]

/-- A window decodes to `i` exactly when it begins with the bytes of `i` that decode reads (R64, R66, R80). -/
theorem decode_eq_known_iff (hw : p.opcodeMap.wf) :
    decode p w = .known i ↔
      w.bytes.take (1 + i.mnemonic.operands) = (encode p.opcodeMap i).take (1 + i.mnemonic.operands) := by
  rw [take_encode hw, take_bytes, List.cons.injEq]
  constructor
  · intro h
    obtain ⟨hir, hi⟩ := byte_of_decode h
    exact ⟨hir, (assemble_eq_iff.mp hi.symm).2.symm⟩
  · rintro ⟨hir, hops⟩
    rw [decode_of_byte hw hir, assemble_eq_iff.mpr ⟨rfl, hops.symm⟩]

/-- The bytes decode reads are among the encoding, and among the three of a window. -/
theorem operands_le_encode (hw : p.opcodeMap.wf) (i : Instr) :
    1 + i.mnemonic.operands ≤ (encode p.opcodeMap i).length ∧ 1 + i.mnemonic.operands ≤ 3 := by
  have hcount := hw.operands_le i.mnemonic
  have htwo := i.mnemonic.operands_le
  rw [length_encode hw]
  omega

/-- The window of three bytes or more is the first three of them. -/
theorem bytes_ofBytes {bs : List Byte} (h : 3 ≤ bs.length) : (Window.ofBytes bs).bytes = bs.take 3 := by
  match bs, h with
  | x :: y :: z :: bs, _ => rfl

/-- Settles O2: three bytes of the encoding and what follows it begin with the bytes decode reads. -/
theorem decodeInvertsEncode : Obligations.DecodeInvertsEncode := by
  intro p i x y hw
  obtain ⟨hlen, hthree⟩ := operands_le_encode hw i
  have hbytes : 3 ≤ (encode p.opcodeMap i ++ [x, y]).length := by
    simp only [List.length_append, List.length_cons, List.length_nil]; omega
  rw [decode_eq_known_iff hw, bytes_ofBytes hbytes, List.take_take, Nat.min_eq_left hthree,
    List.take_append_of_le_length hlen]

/-- Where an opcode counts the operands of its format, decode reads the whole encoding. -/
theorem take_encode_of_operandCount (hw : p.opcodeMap.wf)
    (h : operandCount (p.opcodeMap.byte i.mnemonic) = i.mnemonic.operands) :
    (encode p.opcodeMap i).take (1 + i.mnemonic.operands) = encode p.opcodeMap i :=
  List.take_of_length_le (by rw [length_encode hw, h])

/-- Settles O3, by the relation of decode and encode; an opcode counts more than its format's operands only for NOT. -/
theorem encodeInvertsDecode : Obligations.EncodeInvertsDecode := by
  intro p w i hw h
  obtain ⟨hir, -⟩ := byte_of_decode h
  have hbegin := (decode_eq_known_iff hw).mp h
  rw [hir]
  refine ⟨length_encode hw i, hbegin.symm, fun hNOT => ?_⟩
  have hcount : operandCount (p.opcodeMap.byte i.mnemonic) = i.mnemonic.operands := by
    rcases hw.operandCount_eq i.mnemonic with hc | ⟨hm, hc⟩
    · exact hc
    · rcases hNOT with hne | hone
      · exact absurd hm hne
      · omega
  rw [hcount, hbegin, take_encode_of_operandCount hw hcount]

/-! ### Opcode bytes (R69 to R71, R80) -/

/-- A byte outside the map and in UNNAMED_OPCODES decodes as unnamed, whatever follows it (R80). -/
theorem decode_of_unnamed (hmap : ∀ m, w.ir ≠ p.opcodeMap.byte m) (hnamed : w.ir ∈ p.unnamedOpcodes) :
    decode p w = .unnamed w.ir := by
  rw [decode_eq, knownOp_eq_none.mpr hmap]
  exact if_pos hnamed

/-- A byte of the map decodes to an operation that has it, under any map. -/
theorem decode_of_mem_map (h : ∃ m, w.ir = p.opcodeMap.byte m) :
    ∃ m, w.ir = p.opcodeMap.byte m ∧ decode p w = .known (assemble m w.opA w.opB) := by
  match hk : knownOp p.opcodeMap w.ir with
  | some m => exact ⟨m, byte_of_knownOp hk, by rw [decode_eq, hk]⟩
  | none =>
    obtain ⟨m, hm⟩ := h
    exact absurd hm (knownOp_eq_none.mp hk m)

/-- Whether the byte `n` is unknown with the default parameters. -/
def isUnknownByDefault (n : Nat) : Bool := decodeOp Params.defaults (BitVec.ofNat 8 n) == .unknown

/-- The default map has 2 of the 64 bytes that count no operand, 8 of those that count one, 10 of those that count two
and none of those that count three (R62, R67). -/
theorem countP_isUnknownByDefault :
    [0, 64, 128, 192].map (fun lo => (List.range' lo 64).countP isUnknownByDefault) =
      [64 - 2, 64 - 8, 64 - 10, 64] := by
  decide

/-- Settles O4: the three classes by membership in the map and in UNNAMED_OPCODES, and the count as the sum over the
operand counts. -/
theorem everyOpcodeByteIsClassified : Obligations.EveryOpcodeByteIsClassified := by
  refine ⟨fun _ _ => ⟨decode_of_mem_map, decode_of_unnamed, decode_of_unknown⟩, ?_⟩
  have hsplit : List.range 256 =
      List.range' 0 64 ++ List.range' 64 64 ++ List.range' 128 64 ++ List.range' 192 64 := by
    rw [List.range_eq_range', @List.range'_append_1 0 64 64, @List.range'_append_1 0 128 64,
      @List.range'_append_1 0 192 64]
  have hcounts := countP_isUnknownByDefault
  simp only [List.map_cons, List.map_nil, List.cons.injEq] at hcounts
  obtain ⟨h0, h1, h2, h3, -⟩ := hcounts
  calc (List.range 256).countP isUnknownByDefault = 62 + 56 + 54 + 64 := by
        rw [hsplit, List.countP_append, List.countP_append, List.countP_append, h0, h1, h2, h3]
    _ = 236 := rfl

/-! ### Lengths (R61, R62, R64) -/

/-- An encoding is no longer than MAX_INSN_LEN (R61). -/
theorem length_encode_le {om : OpcodeMap} (hw : om.wf) (i : Instr) : (encode om i).length ≤ 3 :=
  (length_encode hw i).trans_le (hw.length_le i.mnemonic)

/-- NOT is two or three bytes long (D28). -/
theorem length_encode_NOT {om : OpcodeMap} (hw : om.wf) (h : i.mnemonic = .NOT) :
    (encode om i).length = 2 ∨ (encode om i).length = 3 := by
  rw [length_encode hw, h]
  rcases hw.operandCount_eq .NOT with hc | ⟨-, hc⟩ <;> rw [hc]
  · exact .inl rfl
  · exact .inr rfl

/-- Settles O53, by the lengths of the formats; the default map is a closed case. -/
theorem lengthsUnderEveryMap : Obligations.LengthsUnderEveryMap := by
  refine ⟨fun om i hw => ⟨length_encode hw i, length_encode_le hw i, fun hne => ?_, length_encode_NOT hw⟩,
    OPCODE_MAP_wf, fun a => encode_eq (i := .not a) (show operandCount (OPCODE_MAP.byte .NOT) = 1 by decide)⟩
  rw [length_encode hw, length_operandBytes, hw.operandCount_of_ne_NOT hne]

/-- Settles O1: each word is a closed case. -/
theorem specWordsDecode : Obligations.SpecWordsDecode := by
  unfold Obligations.SpecWordsDecode
  decide

end Sys2Proof.Machine

/-! Canonical memories are equal where they read the same (file 20_memory.md). -/

namespace Sys2Proof.Machine

variable {m n : Memory} {c d : Nat × Byte}

theorem Memory.wf.tail (h : Memory.wf (c :: m)) : Memory.wf m :=
  ⟨h.1.tail, fun e he => h.2 e (List.mem_cons_of_mem c he)⟩

/-- The entries after the first stand at higher addresses. -/
theorem Memory.wf.head_lt (h : Memory.wf (c :: m)) : ∀ e ∈ m, c.1 < e.1 := (List.pairwise_cons.mp h.1).1

theorem Memory.read_head (c : Nat × Byte) (m : Memory) : Memory.read (c :: m) c.1 = c.2 := if_pos rfl

/-- The first entry's address reads as something else than an address with no entry. -/
theorem Memory.wf.read_head_ne (h : Memory.wf (c :: m)) : Memory.read (c :: m) c.1 ≠ Memory.unlisted := by
  rw [Memory.read_head]
  exact (h.2 c List.mem_cons_self).2

/-- A first entry that another canonical memory reads too stands no lower than that memory's first. -/
theorem Memory.wf.head_le (hm : Memory.wf (c :: m)) (hn : Memory.wf (d :: n))
    (h : ∀ a, Memory.read (c :: m) a = Memory.read (d :: n) a) : d.1 ≤ c.1 := by
  by_contra! hlt
  have hbelow : ∀ e ∈ d :: n, c.1 < e.1 :=
    List.forall_mem_cons.mpr ⟨hlt, fun e he => hlt.trans (hn.head_lt e he)⟩
  exact hm.read_head_ne ((h c.1).trans (Memory.read_below hbelow))

/-- What the entries after the first read as: as the whole does, but unlisted at the first's address. -/
theorem Memory.wf.read_tail (h : Memory.wf (c :: m)) (a : Nat) :
    Memory.read m a = if c.1 = a then Memory.unlisted else Memory.read (c :: m) a := by
  split
  · next ha => exact ha ▸ Memory.read_below h.head_lt
  · next ha => exact (if_neg ha).symm

/-- Settles O7, by induction on the two lists: the first entries stand at the same address, hold the same byte, and
the memories after them read the same. -/
theorem canonicalMemoryIsExtensional : Obligations.CanonicalMemoryIsExtensional := by
  intro m
  induction m with
  | nil =>
    rintro (_ | ⟨d, n⟩) - hn h
    · rfl
    · exact absurd (h d.1).symm hn.read_head_ne
  | cons c m ih =>
    rintro (_ | ⟨d, n⟩) hm hn h
    · exact absurd (h c.1) hm.read_head_ne
    · have haddr : c.1 = d.1 := (hn.head_le hm fun a => (h a).symm).antisymm (hm.head_le hn h)
      have hbyte : c.2 = d.2 := by
        have hread := h c.1
        rwa [Memory.read_head, haddr, Memory.read_head] at hread
      have htail : ∀ a, Memory.read m a = Memory.read n a := fun a => by
        rw [hm.read_tail, hn.read_tail, haddr, h]
      rw [Prod.ext haddr hbyte, ih n hm.tail hn.tail htail]

end Sys2Proof.Machine

/-! The ALU function row by row, and the single-operation laws of the shifts, NOT and MOD (file 41_alu.md). -/

namespace Sys2Proof.Machine

/-! ### The table of R101 -/

/-- A register result is its exact value mod 256 (R96). -/
theorem result_eq_mod (v : Nat) :
    AluOut.result v = { res := some (BitVec.ofNat 8 (v % 256)), fl := none, divZero := false } := by
  have hmod : BitVec.ofNat 8 (v % 256) = BitVec.ofNat 8 v := BitVec.eq_of_toNat_eq (Nat.mod_mod v 256)
  rw [hmod]
  rfl

/-- The exact value of a byte is the byte. -/
theorem result_toNat (r : Byte) : AluOut.result r.toNat = { res := some r, fl := none, divZero := false } := by
  rw [AluOut.result, BitVec.ofNat_toNat, BitVec.setWidth_eq]

/-- CMP's row: the flag of the order of the two values (R106). -/
theorem cmpFlags_eq (A B : Byte) :
    cmpFlags A B = if A.toNat = B.toNat then 1 else if B.toNat < A.toNat then 2 else 4 := by
  rcases Nat.lt_trichotomy A.toNat B.toNat with h | h | h
  · rw [cmpFlags_of_lt h, if_neg h.ne, if_neg h.not_gt]
  · rw [cmpFlags_of_eq h, if_pos h]
  · rw [cmpFlags_of_gt h, if_neg h.ne', if_pos h]

/-- NOT's row is the complement of the byte (R109, R115). -/
theorem alu_NOT (A B : Byte) : alu .NOT A B = some (.result (~~~A).toNat) := by
  rw [BitVec.toNat_not]
  rfl

/-- A right shift does not leave a byte (R120). -/
theorem alu_SHR_toNat (A B : Byte) : alu .SHR A B = some (.result (A >>> B.toNat).toNat) := by
  rw [BitVec.toNat_ushiftRight]
  exact alu_SHR A B

/-- A remainder does not leave a byte (R121). -/
theorem alu_MOD_of_ne_zero (A : Byte) {B : Byte} (h : B.toNat ≠ 0) :
    alu .MOD A B = some (.result (A % B).toNat) := by
  have hB : B ≠ 0 := fun h0 => h (by rw [h0]; rfl)
  rw [BitVec.toNat_umod]
  exact congrArg some (if_neg hB)

theorem alu_MOD_of_zero (A : Byte) {B : Byte} (h : B.toNat = 0) : alu .MOD A B = some .zeroDivisor := by
  have hB : B = 0 := BitVec.eq_of_toNat_eq h
  exact congrArg some (if_pos hB)

/-- Settles O8: the rows are exact results or bytes, and the operations outside the table are a finite list. -/
theorem aluFunctionTable : Obligations.AluFunctionTable := by
  have row {op : Mnemonic} {A B : Byte} {v : Nat} (h : alu op A B = some (.result v)) :
      alu op A B = some ⟨some (BitVec.ofNat 8 (v % 256)), none, false⟩ := by rw [h, result_eq_mod]
  have byteRow {op : Mnemonic} {A B r : Byte} (h : alu op A B = some (.result r.toNat)) :
      alu op A B = some ⟨some r, none, false⟩ := by rw [h, result_toNat]
  refine ⟨fun A B => ⟨row rfl, row rfl, ?_, ?_, ?_, ?_, ?_, row rfl, ?_, ?_, ?_⟩, ?_⟩
  · rw [← cmpFlags_eq]; rfl
  · exact ⟨A &&& B, byteRow rfl, fun k _ => BitVec.getLsbD_and⟩
  · exact ⟨A ||| B, byteRow rfl, fun k _ => BitVec.getLsbD_or⟩
  · exact ⟨A ^^^ B, byteRow rfl, fun k _ => BitVec.getLsbD_xor⟩
  · exact ⟨~~~A, byteRow (alu_NOT A B), BitVec.toNat_not, fun k hk => by simp [hk]⟩
  · exact ⟨A >>> B.toNat, byteRow (alu_SHR_toNat A B),
      by rw [BitVec.toNat_ushiftRight, Nat.shiftRight_eq_div_pow]⟩
  · exact fun hB => ⟨A % B, byteRow (alu_MOD_of_ne_zero A hB), BitVec.toNat_umod⟩
  · exact alu_MOD_of_zero A
  · intro op hop A B
    have hnot : op.isAlu = false := by revert op; decide
    rw [← Option.isNone_iff_eq_none, ← Option.not_isSome, alu_isSome, hnot]
    rfl

/-! ### Shifts by 8 or more (R116) -/

/-- A byte shifted left by 8 or more has no bit below 256 (R118). -/
theorem shiftLeft_mod_of_ge_eight (n : Nat) {k : Nat} (h : 8 ≤ k) : n <<< k % 256 = 0 := by
  have hpow : 2 ^ 8 ∣ 2 ^ k := Nat.pow_dvd_pow 2 h
  rw [Nat.shiftLeft_eq]
  exact Nat.mod_eq_zero_of_dvd (Dvd.dvd.mul_left hpow n)

/-- A byte shifted right by 8 or more has no bit left (R120). -/
theorem shiftRight_of_ge_eight (A : Byte) {k : Nat} (h : 8 ≤ k) : A.toNat >>> k = 0 :=
  Nat.shiftRight_eq_zero A.toNat k (A.isLt.trans_le (Nat.pow_le_pow_right (by omega) h))

/-- Settles O9: the exact result of either shift is 0 mod 256. -/
theorem shiftsByEightOrMoreClear : Obligations.ShiftsByEightOrMoreClear := by
  intro s a b A B ha hb hB
  have hshl : WritesOneReg (.shl a b) s a (BitVec.ofNat 8 (A.toNat <<< B.toNat % 256)) :=
    writesOneReg_of_alu_result rfl ha hb (alu_SHL A B)
  have hshr : WritesOneReg (.shr a b) s a (BitVec.ofNat 8 (A.toNat >>> B.toNat % 256)) :=
    writesOneReg_of_alu_result rfl ha hb (alu_SHR A B)
  rw [shiftLeft_mod_of_ge_eight _ hB] at hshl
  rw [shiftRight_of_ge_eight A hB] at hshr
  exact ⟨hshl, hshr⟩

/-! ### NOT and MOD (R115, R121) -/

/-- Settles O11: NOT writes the complement to its register, and rejects an index above 7. -/
theorem notComplementsRegister : Obligations.NotComplementsRegister := fun s _ _ =>
  ⟨fun ha => writesOneReg_of_setReg (valid_of_reg? ha) (execNot_of_some ha),
    fun hgt => execNot_of_invalid s (Nat.not_lt.mpr hgt)⟩

/-- Settles O13: the byte MOD writes is the remainder of the two bytes. -/
theorem modGivesRemainder : Obligations.ModGivesRemainder := by
  intro s a b A B ha hb h0
  have hwrites : exec (.mod a b) s = .next (advance .MOD (s.setReg a (A % B))) := by
    have hresult := binaryAlu_result ha hb (alu_MOD_of_ne_zero A h0)
    rwa [BitVec.ofNat_toNat, BitVec.setWidth_eq] at hresult
  refine ⟨A % B, writesOneReg_of_setReg (valid_of_reg? ha) hwrites, ?_, ?_⟩
  · rw [BitVec.toNat_umod]
    exact Nat.mod_lt _ (Nat.pos_of_ne_zero h0)
  · rw [BitVec.toNat_umod, Nat.div_add_mod]

end Sys2Proof.Machine

/-! PUSH and POP, each whole (file 42_register_stack.md). -/

namespace Sys2Proof.Machine

variable {s t : State}

/-- The byte PUSH and CALL see in register `a`, which holds `A` before the decrement: SP's is the decremented one (R132,
R143). -/
def pushedOperand (a A : Byte) (s : State) : Byte := if a = 7 then s.sp - 1 else A

theorem pushedOperand_of_ne {a : Byte} (A : Byte) (s : State) (h : a ≠ 7) : pushedOperand a A s = A := if_neg h

@[simp] theorem pushedOperand_seven (A : Byte) (s : State) : pushedOperand 7 A s = s.sp - 1 := if_pos rfl

theorem reg?_decSp_of_some {a A : Byte} (h : s.reg? a = some A) : (decSp s).reg? a = some (pushedOperand a A s) := by
  rw [reg?_decSp, h]
  exact (apply_ite some _ _ _).symm

/-- PUSH of a register that exists is a push and the advance (R131, R132). -/
theorem exec_push_of_some {a A : Byte} (h : s.reg? a = some A) :
    exec (.push a) s = .next (advance .PUSH (pushByte s (pushedOperand a A s))) :=
  execPush_of_some (reg?_decSp_of_some h)

/-- The decrement of SP wraps at 0 alone (R133). -/
theorem pushAddr_of_sp_zero (h : s.sp = 0) : pushAddr s = 255 := by
  rw [pushAddr, h]; rfl

theorem pushAddr_of_sp_ne_zero (h : s.sp ≠ 0) : pushAddr s = s.sp.toNat - 1 := by
  have hpos : (1 : Byte) ≤ s.sp := Nat.pos_of_ne_zero fun h0 => h (BitVec.eq_of_toNat_eq h0)
  exact BitVec.toNat_sub_of_le hpos

/-- Settles O17: PUSH is a push of what its register holds once SP is decremented. -/
theorem pushStoresAtDecrementedSp : Obligations.PushStoresAtDecrementedSp := by
  refine fun s a A => ⟨fun hA => ?_, fun hgt => execPush_of_invalid s (Nat.not_lt.mpr hgt)⟩
  have hread := read_pushByte s (pushedOperand a A s)
  refine ⟨_, exec_push_of_some hA, sp_pushByte s (pushedOperand a A s), rfl, fun hne => ?_, ?_, pushAddr_of_sp_zero,
    pushAddr_of_sp_ne_zero, (frame_pushByte s _).advance .PUSH⟩
  · exact hread.trans (pushedOperand_of_ne A s hne)
  · rintro rfl
    exact hread.trans (pushedOperand_seven A s)

/-- POP of SP ends with the popped byte plus one (R136). -/
theorem sp_popByte_seven (s : State) : (popByte 7 s).sp = Memory.read s.mem s.sp.toNat + 1 :=
  (sp_incSp _).trans (congrArg (· + 1) (sp_setReg_seven s _))

/-- Settles O18: POP is a pop and the advance. -/
theorem popLoadsFromSp : Obligations.PopLoadsFromSp := by
  refine fun s a => ⟨fun hle => ?_, fun hgt => execPop_of_invalid s (Nat.not_lt.mpr hgt)⟩
  have ha : validReg a := Nat.lt_succ_of_le hle
  refine ⟨_, exec_pop_of_valid s ha, rfl, (frame_popByte s ha).advance .POP, fun hne => ?_, ?_⟩
  · exact ⟨reg?_popByte_of_ne s ha hne, sp_popByte_of_ne s hne⟩
  · rintro rfl
    exact sp_popByte_seven s

end Sys2Proof.Machine

/-! CALL, RET, the jumps and HLT, each whole (file 43_control_flow.md). -/

namespace Sys2Proof.Machine

variable {i : Instr} {s t : State}

/-- A load of `pc` is outside every frame (R32). -/
theorem Frame.loadPc {ds : List Byte} {addrs : List Nat} (v : Byte) (h : Frame ds addrs s t) :
    Frame ds addrs s (loadPc v t) := h

/-- Nothing changed is within every frame. -/
theorem Frame.refl (ds : List Byte) (addrs : List Nat) (s : State) : Frame ds addrs s s :=
  ⟨rfl, fun _ _ => rfl, fun _ _ => rfl, ⟨rfl, rfl⟩, rfl, rfl, rfl, rfl⟩

/-! ### CALL and RET (R141, R145) -/

/-- CALL of a register that exists is a push of the return address and a jump (R141, R143). -/
theorem exec_call_of_some {a A : Byte} (h : s.reg? a = some A) :
    exec (.call a) s = .next (loadPc (pushedOperand a A s) (pushByte s (returnAddress s))) :=
  execCall_of_some (reg?_decSp_of_some h)

/-- Settles O20: CALL pushes the return address and jumps to what its register holds once SP is decremented. -/
theorem callPushesReturnAddress : Obligations.CallPushesReturnAddress := by
  refine fun s a A => ⟨fun hA => ?_, fun hgt => execCall_of_invalid s (Nat.not_lt.mpr hgt)⟩
  have hread := read_pushByte s (returnAddress s)
  refine ⟨_, exec_call_of_some hA, sp_pushByte s (returnAddress s), fun hne => ?_, ?_, hread, fun hpc => ?_,
    (frame_pushByte s _).loadPc _⟩
  · rw [loadPc_pc, pushedOperand_of_ne A s hne]
  · rintro rfl
    rw [loadPc_pc, pushedOperand_seven]
  · exact (congrArg BitVec.toNat hread).trans (returnAddress_toNat hpc)

/-- Settles O21: RET is a load of `pc` and the increment of SP in every state. -/
theorem retPopsPc : Obligations.RetPopsPc := fun s =>
  ⟨_, exec_ret_of_top rfl, rfl, sp_incSp s, (frame_setSp s (s.sp + 1)).loadPc _⟩

/-! ### Jumps (R148, R150 to R153) -/

/-- Settles O23: JMP of a register that exists is a load of `pc`, which is outside every frame. -/
theorem jmpLoadsPc : Obligations.JmpLoadsPc := fun s _ A =>
  ⟨fun hA => ⟨_, execJmp_of_some hA, rfl, (Frame.refl [] [] s).loadPc A⟩,
    fun hgt => execJmp_of_invalid s (Nat.not_lt.mpr hgt)⟩

/-- JEQ and JNE are the branch of their operation, taken as `branchTaken` says. -/
theorem exec_of_branch {a : Byte} (hm : i.mnemonic = .JEQ ∨ i.mnemonic = .JNE) (hi : i.regOperands = [a]) (s : State) :
    exec i s = finish (branch i.mnemonic (branchTaken i s.fl) a s) := by
  cases i with
  | jeq | jne => cases hi; rfl
  | _ => simp [Instr.mnemonic] at hm

theorem exec_branch_taken {a A : Byte} (hm : i.mnemonic = .JEQ ∨ i.mnemonic = .JNE) (hi : i.regOperands = [a])
    (ht : branchTaken i s.fl = true) (hA : s.reg? a = some A) : exec i s = .next (loadPc A s) := by
  rw [exec_of_branch hm hi, ht, branch_taken_of_some _ hA, finish_ok]

theorem exec_branch_untaken {a : Byte} (hm : i.mnemonic = .JEQ ∨ i.mnemonic = .JNE) (hi : i.regOperands = [a])
    (ht : branchTaken i s.fl = false) (ha : s.params.branchChecksUntaken = true → validReg a) :
    exec i s = .next (advance i.mnemonic s) := by
  rw [exec_of_branch hm hi, ht, branch_untaken _ ha, finish_ok]

/-- A branch rejects its register where it uses it: taken, or under BRANCH_CHECKS_UNTAKEN (R153). -/
theorem exec_branch_of_invalid {a : Byte} (hm : i.mnemonic = .JEQ ∨ i.mnemonic = .JNE) (hi : i.regOperands = [a])
    (hused : branchTaken i s.fl = true ∨ s.params.branchChecksUntaken = true) (ha : ¬ validReg a) :
    RejectsReg i s a := by
  rw [RejectsReg, exec_of_branch hm hi]
  cases ht : branchTaken i s.fl with
  | true => rw [branch_taken_of_invalid _ s ha, finish_error]
  | false =>
    have hc := hused.resolve_left (by rw [ht]; decide)
    rw [branch_untaken_of_invalid _ hc ha, finish_error]

/-- A branch is taken or not as bit E says: JEQ on bit E set, JNE on bit E clear. -/
theorem branchTaken_of_cases {a : Byte} {b : Bool} (fl : Byte)
    (h : i = .jeq a ∧ fl.getLsbD 0 = b ∨ i = .jne a ∧ fl.getLsbD 0 = !b) :
    (i.mnemonic = .JEQ ∨ i.mnemonic = .JNE) ∧ i.regOperands = [a] ∧ branchTaken i fl = b := by
  rcases h with ⟨rfl, he⟩ | ⟨rfl, he⟩
  · exact ⟨.inl rfl, rfl, he⟩
  · exact ⟨.inr rfl, rfl, by rw [branchTaken, he, Bool.not_not]⟩

/-- A branch is two bytes long under every map that agrees with the spec (R64). -/
theorem advanceOf_branch (hm : i.mnemonic = .JEQ ∨ i.mnemonic = .JNE) (hw : s.params.opcodeMap.wf) :
    advanceOf i.mnemonic s = 2 := by
  rcases hm with hm | hm <;> rw [hm] <;> exact hw.length_of_ne_NOT (by decide)

/-- Settles O24: the two branches by the one shape they share, taken and not. -/
theorem branchesFollowBitE : Obligations.BranchesFollowBitE := by
  refine fun s a A i => ⟨fun htaken => ?_, fun huntaken => ?_⟩
  · obtain ⟨hm, hi, ht⟩ := branchTaken_of_cases (b := true) s.fl htaken
    exact ⟨fun hA => ⟨_, exec_branch_taken hm hi ht hA, rfl, (Frame.refl [] [] s).loadPc A⟩,
      fun hgt => exec_branch_of_invalid hm hi (.inl ht) (Nat.not_lt.mpr hgt)⟩
  · obtain ⟨hm, hi, ht⟩ := branchTaken_of_cases (b := false) s.fl huntaken
    refine ⟨fun hfits => ?_, advanceOf_branch hm, fun hgt hc =>
      exec_branch_of_invalid hm hi (.inr hc) (Nat.not_lt.mpr hgt)⟩
    have ha : s.params.branchChecksUntaken = true → validReg a := fun hc =>
      Nat.lt_succ_of_le (hfits.resolve_right (by rw [hc]; decide))
    exact ⟨_, exec_branch_untaken hm hi ht ha, rfl, (Frame.refl [] [] s).advance _⟩

/-! ### HLT (R155) -/

/-- HLT's byte is the source's (R67), so its encoding is the same under every map that agrees with the spec. -/
theorem encode_hlt {om : OpcodeMap} (hw : om.wf) : encode om .hlt = [0x01] := by
  have ⟨_, hbyte, _⟩ := hw
  calc encode om .hlt = [om.HLT] := encode_of_ne_NOT hw nofun
    _ = [0x01] := by rw [hbyte]

/-- Settles O25: HLT is the halt and the advance, which write the run state and `pc` alone. -/
theorem hltHalts : Obligations.HltHalts :=
  ⟨fun _ hw => encode_hlt hw, fun _ => ⟨_, rfl, rfl, rfl, fun hw => hw.length_of_ne_NOT (by decide), rfl,
    fun _ _ => rfl, fun _ _ => rfl, ⟨rfl, rfl⟩, rfl, rfl, rfl⟩⟩

end Sys2Proof.Machine

/-! What every instruction leaves unchanged: registers, memory, traces, run state and `pc`, by the cases of its effect
(files 10_state.md, 20_memory.md and 40_execution_cycle.md). -/

namespace Sys2Proof.Machine

variable {i : Instr} {s t : State}

/-! ### Memory (R49) -/

/-- Memory after an instruction: as before, or with one byte stored at the decremented SP. -/
theorem ExecEffect.mem_cases (h : ExecEffect i s t) :
    t.mem = s.mem ∨ storeAddrs i s = [pushAddr s] ∧ ∃ v, t.mem = Memory.write s.mem (pushAddr s) v := by
  cases h with
  | push | call => exact .inr ⟨rfl, _, rfl⟩
  | hlt | ret | pop | prn | jmp | taken | untaken | not | ldi | result | flags | zeroDivisor => exact .inl rfl

/-- Settles O31: the one byte stored is at the one listed address. -/
theorem onlyPushAndCallStore : Obligations.OnlyPushAndCallStore := by
  intro i s t h c hc
  rcases (exec_next_effect h).mem_cases with hmem | ⟨haddrs, v, hmem⟩
  · rw [hmem]
  · rw [haddrs, List.mem_singleton] at hc
    rw [hmem, Memory.read_write_other _ v hc]

/-! ### Registers (R25) -/

/-- A two-operand ALU instruction with a register result writes register A. -/
theorem writtenRegs_of_result {a b A B : Byte} {v : Nat} (hi : i.regOperands = [a, b])
    (hv : alu i.mnemonic A B = some (.result v)) : writtenRegs i = [a] := by
  have hne := ne_CMP_of_alu_result hv
  cases i <;> simp_all [Instr.regOperands, Instr.mnemonic, writtenRegs]

theorem sameRegs_of_regs_eq {ds : List Byte} (h : t.regs = s.regs) : SameRegsExcept ds s t := fun r _ => by
  rw [State.reg?, State.reg?, h]

theorem Frame.sameRegs {ds : List Byte} {addrs : List Nat} (h : Frame ds addrs s t) : SameRegsExcept ds s t :=
  have ⟨_, hregs, _⟩ := h
  hregs

/-- An instruction writes only the registers of its list. -/
theorem ExecEffect.sameRegs (h : ExecEffect i s t) : SameRegsExcept (writtenRegs i) s t := by
  cases h with
  | ret | push | call => exact (frame_setSp s _).sameRegs
  | pop ha => exact (frame_popByte s ha).sameRegs
  | not ha => exact (frame_setReg s _ (valid_of_reg? ha)).sameRegs
  | ldi ha => exact (frame_setReg s _ ha).sameRegs
  | result hi ha _ hv =>
    rw [writtenRegs_of_result hi hv]
    exact (frame_setReg s _ (valid_of_reg? ha)).sameRegs
  | hlt | prn | jmp | taken | untaken | flags | zeroDivisor => exact sameRegs_of_regs_eq rfl

/-- Settles O27, by the cases of an instruction's effect. -/
theorem onlyListedInstructionsWriteRegisters : Obligations.OnlyListedInstructionsWriteRegisters := fun _ _ _ h =>
  (exec_next_effect h).sameRegs

/-! ### Traces and control (R37, R39, R172) -/

/-- No instruction writes the latches or the launch parameters. -/
theorem ExecEffect.latch_params (h : ExecEffect i s t) : t.latch = s.latch ∧ t.params = s.params := by
  cases h <;> exact ⟨rfl, rfl⟩

/-- The run state after an instruction: as before, or one of the two halts. -/
theorem ExecEffect.run_cases (h : ExecEffect i s t) :
    t.run = s.run ∨ i = .hlt ∧ t.run = .halted .hlt ∨
      ∃ a b, i = .mod a b ∧ s.reg? b = some 0 ∧ t.run = .halted .modZero := by
  cases h with
  | hlt => exact .inr (.inl ⟨rfl, rfl⟩)
  | zeroDivisor _ hb => exact .inr (.inr ⟨_, _, rfl, hb, rfl⟩)
  | ret | push | pop | prn | call | jmp | taken | untaken | not | ldi | result | flags => exact .inl rfl

/-- A MOD that completes writes neither trace, the run state nor the draw counter, or is the zero-divisor halt. -/
theorem ExecEffect.mod_cases (h : ExecEffect i s t) (hm : i.mnemonic = .MOD) :
    SameTraces s t ∧ t.run = s.run ∧ t.draws = s.draws ∨ t = haltModZero s := by
  cases h with
  | result => exact .inl ⟨⟨rfl, rfl⟩, rfl, rfl⟩
  | zeroDivisor => exact .inr rfl
  | taken hb | untaken hb => rcases hb with hb | hb <;> exact nomatch hb.symm.trans hm
  | hlt | ret | push | pop | prn | call | jmp | not | ldi | flags => cases hm

/-- Only MOD writes the draw counter. -/
theorem ExecEffect.draws_eq (h : ExecEffect i s t) (hm : i.mnemonic ≠ .MOD) : t.draws = s.draws := by
  cases h with
  | zeroDivisor => exact absurd rfl hm
  | hlt | ret | push | pop | prn | call | jmp | taken | untaken | not | ldi | result | flags => rfl

/-- Settles O32: each field by the cases of an instruction's effect on it. -/
theorem instructionsKeepTracesAndControl : Obligations.InstructionsKeepTracesAndControl := by
  intro i s t hexec
  have h := exec_next_effect hexec
  obtain ⟨hlatch, hparams⟩ := h.latch_params
  refine ⟨hlatch, hparams, fun hm => ?_, fun hHLT hMOD => ?_, fun hm => ⟨?_, h.draws_eq hm⟩, fun hm => ?_⟩
  · rcases h.out_cases with hout | ⟨a, A, rfl, -⟩
    · exact hout
    · exact absurd rfl hm
  · rcases h.run_cases with hrun | ⟨rfl, -⟩ | ⟨a, b, rfl, -⟩
    · exact hrun
    · exact absurd rfl hHLT
    · exact absurd rfl hMOD
  · rcases h.dg_cases with hdg | ⟨a, b, rfl, -⟩
    · exact hdg
    · exact absurd rfl hm
  · refine (h.mod_cases hm).imp_right ?_
    rintro rfl
    exact ⟨haltModZero_run s, haltModZero_dg s⟩

/-! ### The program counter (R85, R87) -/

/-- Whether an instruction loads `pc`: CALL, RET and JMP always, JEQ and JNE when taken (R85). -/
def loadsPc (i : Instr) (fl : Byte) : Prop :=
  i.mnemonic = .CALL ∨ i.mnemonic = .RET ∨ i.mnemonic = .JMP ∨ branchTaken i fl = true

theorem not_loadsPc_of_setsPc {fl : Byte} (h : i.mnemonic.setsPc = false) : ¬ loadsPc i fl := by
  cases i with
  | ret | call | jmp | jeq | jne => cases h
  | _ => simp [loadsPc, Instr.mnemonic, branchTaken]

theorem not_loadsPc_of_untaken {fl : Byte} (hm : i.mnemonic = .JEQ ∨ i.mnemonic = .JNE)
    (ht : branchTaken i fl = false) : ¬ loadsPc i fl := by
  rcases hm with hm | hm <;> simp [loadsPc, hm, ht]

theorem setsPc_of_result {a b : Byte} (hi : i.regOperands = [a, b]) : i.mnemonic.setsPc = false := by
  cases i with
  | add | mul | mod | cmp | and | or | xor | shl | shr => rfl
  | _ => cases hi

/-- `pc` after an instruction: a byte where it loads `pc`, and else the advance by its length, or the draw of a MOD by
zero, which writes `dg`. -/
theorem ExecEffect.pc_cases (h : ExecEffect i s t) :
    loadsPc i s.fl ∧ t.pc ≤ 255 ∨
    ¬ loadsPc i s.fl ∧ (t.dg = s.dg ∧ t.pc = s.pc + i.mnemonic.length s.params.opcodeMap ∨
      i.mnemonic = .MOD ∧ t.dg ≠ s.dg ∧ t.pc = modZeroPc s) := by
  have byteLe (b : Byte) : b.toNat ≤ 255 := Nat.le_of_lt_succ (byte_toNat_lt b)
  cases h with
  | call => exact .inl ⟨.inl rfl, byteLe _⟩
  | ret => exact .inl ⟨.inr (.inl rfl), byteLe _⟩
  | jmp => exact .inl ⟨.inr (.inr (.inl rfl)), byteLe _⟩
  | taken _ _ ht => exact .inl ⟨.inr (.inr (.inr ht)), byteLe _⟩
  | untaken hm _ ht => exact .inr ⟨not_loadsPc_of_untaken hm ht, .inl ⟨rfl, rfl⟩⟩
  | result hi => exact .inr ⟨not_loadsPc_of_setsPc (setsPc_of_result hi), .inl ⟨rfl, rfl⟩⟩
  | hlt | push | pop | prn | not | ldi | flags => exact .inr ⟨not_loadsPc_of_setsPc rfl, .inl ⟨rfl, rfl⟩⟩
  | zeroDivisor => exact .inr ⟨not_loadsPc_of_setsPc rfl, .inr ⟨rfl, by simp, rfl⟩⟩

/-- Settles O33, by the cases of `pc`. -/
theorem pcAdvancesByOnePlusOperandCount : Obligations.PcAdvancesByOnePlusOperandCount := by
  intro i s t hexec
  rcases (exec_next_effect hexec).pc_cases with ⟨hload, hpc⟩ | ⟨hload, ⟨hdg, hpc⟩ | ⟨hm, hdg, hpc⟩⟩
  · refine ⟨fun hset => absurd hload (not_loadsPc_of_setsPc hset), fun hm => ?_,
      fun hm ht => absurd hload (not_loadsPc_of_untaken hm ht), fun _ => hpc⟩
    exact absurd hload (not_loadsPc_of_setsPc (by rw [hm]; rfl))
  · exact ⟨fun _ _ => hpc, fun _ hne => absurd hdg hne, fun _ _ => hpc, fun h => absurd h hload⟩
  · refine ⟨fun _ hor => absurd (hor.resolve_left (absurd hm)) hdg, fun _ _ => hpc ▸ modZeroPc_cases s, fun hb => ?_,
      fun h => absurd h hload⟩
    rcases hb with hb | hb <;> exact nomatch hm.symm.trans hb

end Sys2Proof.Machine

/-! The answers of every instruction: which index it rejects (file 60_exceptions.md), and, from that, what the fields of
the state it does not read can hold (file 10_state.md). -/

namespace Sys2Proof.Machine

variable {i : Instr} {s t : State}

/-! ### The register an instruction rejects (R162, R167) -/

/-- The first index above 7 among the registers given, if there is one. -/
def firstInvalid (rs : List Byte) : Option Byte := rs.find? fun x => decide (7 < x.toNat)

theorem firstInvalid_cons_of_invalid {a : Byte} (rs : List Byte) (ha : ¬ validReg a) :
    firstInvalid (a :: rs) = some a :=
  List.find?_cons_of_pos (decide_eq_true (Nat.not_lt.mp ha))

theorem firstInvalid_cons_of_valid {a : Byte} (rs : List Byte) (ha : validReg a) :
    firstInvalid (a :: rs) = firstInvalid rs :=
  List.find?_cons_of_neg (by simpa using Nat.le_of_lt_succ ha)

/-- The answers of an instruction that checks the registers `rs` in the state `s`: it completes, or rejects the first
index above 7. -/
def AnswersChecking (rs : List Byte) (s : State) (r : Result) : Prop :=
  match firstInvalid rs with
  | none => ∃ t, r = .next t
  | some a => r = .fault (.invalidRegister a s.context)

/-- A check of one register more, before the others. -/
theorem AnswersChecking.cons {a : Byte} {rs : List Byte} {r : Result}
    (hbad : ¬ validReg a → r = .fault (.invalidRegister a s.context)) (hok : validReg a → AnswersChecking rs s r) :
    AnswersChecking (a :: rs) s r := by
  unfold AnswersChecking
  by_cases ha : validReg a
  · rw [firstInvalid_cons_of_valid rs ha]
    exact hok ha
  · rw [firstInvalid_cons_of_invalid rs ha]
    exact hbad ha

theorem AnswersChecking.nil {r : Result} (h : ∃ t, r = .next t) : AnswersChecking [] s r := h

/-- The check of one register, which an answer is computed from in a state `u`. -/
theorem AnswersChecking.of_reg? {r : Result} {a : Byte} {u : State} {g : Byte → State}
    (hbad : ¬ validReg a → r = .fault (.invalidRegister a s.context))
    (hok : ∀ {A}, u.reg? a = some A → r = .next (g A)) : AnswersChecking [a] s r :=
  .cons hbad fun ha =>
    have ⟨A, hA⟩ := reg?_of_valid u ha
    .nil ⟨g A, hok hA⟩

/-- A two-operand ALU instruction that has read its registers completes (R95, R122). -/
theorem binaryAlu_completes {op : Mnemonic} {a b A B : Byte} (hop : op.isAlu) (ha : s.reg? a = some A)
    (hb : s.reg? b = some B) : ∃ t, binaryAlu op a b s = .next t := by
  rcases alu_cases hop A B with ⟨v, hv⟩ | rfl | ⟨rfl, rfl⟩
  · exact ⟨_, binaryAlu_result ha hb hv⟩
  · exact ⟨_, execCmp_of_some ha hb⟩
  · exact ⟨_, execMod_of_zero ha hb⟩

/-- A two-operand ALU instruction checks register A, then register B (R94). -/
theorem binaryAlu_answersChecking {op : Mnemonic} (hop : op.isAlu) (a b : Byte) (s : State) :
    AnswersChecking [a, b] s (binaryAlu op a b s) := by
  refine .cons (binaryAlu_of_invalid_left op b s) fun ha => .cons (binaryAlu_of_invalid_right op s ha) fun hb => .nil ?_
  obtain ⟨A, hA⟩ := reg?_of_valid s ha
  obtain ⟨B, hB⟩ := reg?_of_valid s hb
  exact binaryAlu_completes hop hA hB

/-- A branch whose register exists, where it uses it, completes (R150 to R153). -/
theorem exec_branch_completes {a : Byte} (hm : i.mnemonic = .JEQ ∨ i.mnemonic = .JNE) (hi : i.regOperands = [a])
    (ha : branchTaken i s.fl = true ∨ s.params.branchChecksUntaken = true → validReg a) : ∃ t, exec i s = .next t := by
  cases ht : branchTaken i s.fl with
  | true =>
    obtain ⟨A, hA⟩ := reg?_of_valid s (ha (.inl ht))
    exact ⟨_, exec_branch_taken hm hi ht hA⟩
  | false => exact ⟨_, exec_branch_untaken hm hi ht fun hc => ha (.inr hc)⟩

/-- A branch checks its register where it is taken or BRANCH_CHECKS_UNTAKEN is set, and else none. -/
theorem branch_answersChecking {a : Byte} (hm : i.mnemonic = .JEQ ∨ i.mnemonic = .JNE) (hi : i.regOperands = [a])
    (s : State) :
    AnswersChecking (if branchTaken i s.fl || s.params.branchChecksUntaken then [a] else []) s (exec i s) := by
  split
  · next hused =>
    exact .cons (exec_branch_of_invalid hm hi (Bool.or_eq_true_iff.mp hused)) fun ha =>
      .nil (exec_branch_completes hm hi fun _ => ha)
  · next hunused =>
    exact .nil (exec_branch_completes hm hi fun hused => absurd (Bool.or_eq_true_iff.mpr hused) hunused)

/-- Every instruction checks the registers of its list, in their order. -/
theorem exec_answersChecking (i : Instr) (s : State) : AnswersChecking (checkedRegs i s) s (exec i s) := by
  cases i with
  | hlt => exact .nil ⟨_, rfl⟩
  | ret => exact .nil ⟨_, execRet_eq s⟩
  | push a => exact .of_reg? (execPush_of_invalid s) execPush_of_some
  | pop a => exact .cons (execPop_of_invalid s) fun ha => .nil ⟨_, execPop_of_valid s ha⟩
  | prn a => exact .of_reg? (execPrn_of_invalid s) execPrn_of_some
  | call a => exact .of_reg? (execCall_of_invalid s) execCall_of_some
  | jmp a => exact .of_reg? (execJmp_of_invalid s) execJmp_of_some
  | jeq a => exact branch_answersChecking (.inl rfl) rfl s
  | jne a => exact branch_answersChecking (.inr rfl) rfl s
  | not a => exact .of_reg? (execNot_of_invalid s) execNot_of_some
  | ldi a imm => exact .cons (execLdi_of_invalid imm s) fun ha => .nil ⟨_, execLdi_of_valid imm s ha⟩
  | add | mul | mod | cmp | and | or | xor | shl | shr => exact binaryAlu_answersChecking rfl _ _ s

/-- With no index above 7 to check, an instruction completes. -/
theorem exec_next_of_firstInvalid (h : firstInvalid (checkedRegs i s) = none) : ∃ t, exec i s = .next t := by
  have hans := exec_answersChecking i s
  rwa [AnswersChecking, h] at hans

theorem exec_rejects_of_firstInvalid {r : Byte} (h : firstInvalid (checkedRegs i s) = some r) : RejectsReg i s r := by
  have hans := exec_answersChecking i s
  rwa [AnswersChecking, h] at hans

/-- The index an instruction rejects is the first one above 7 that it checks. -/
theorem firstInvalid_of_fault {r : Byte} {c : AbortContext} (h : exec i s = .fault (.invalidRegister r c)) :
    firstInvalid (checkedRegs i s) = some r := by
  cases hf : firstInvalid (checkedRegs i s) with
  | none =>
    obtain ⟨t, ht⟩ := exec_next_of_firstInvalid hf
    exact nomatch ht.symm.trans h
  | some a =>
    cases (exec_rejects_of_firstInvalid hf).symm.trans h
    rfl

theorem checkedRegs_latched (i : Instr) (s : State) : checkedRegs i (latched s) = checkedRegs i s := by
  cases i <;> rfl

/-- A step that raises InvalidRegister fetched an instruction that raised it (R79, R162). -/
theorem step_invalidRegister_cases {r : Byte} {c : AbortContext} (h : step s = .fault (.invalidRegister r c)) :
    ∃ j, fetchedOp s = .known j ∧ firstInvalid (checkedRegs j s) = some r ∧ c = (latched s).context := by
  obtain ⟨-, ⟨-, l, hl⟩ | ⟨-, j, hj, hexec⟩⟩ := step_fault_cases h
  · cases hl
  · have hfirst := firstInvalid_of_fault hexec
    obtain ⟨a, ha⟩ := exec_fault_eq hexec
    cases ha
    rw [checkedRegs_latched] at hfirst
    exact ⟨j, hj, hfirst, rfl⟩

/-- Settles O26: every instruction checks its list in order, and a step's instruction is the one fetched. -/
theorem invalidRegisterExactlyWhenIndexAboveSeven : Obligations.InvalidRegisterExactlyWhenIndexAboveSeven := by
  refine fun i s => ⟨fun hle => exec_next_of_firstInvalid ?_, fun r => exec_rejects_of_firstInvalid, fun r c h => ?_⟩
  · exact List.find?_eq_none.mpr fun r hr => by simpa using hle r hr
  · obtain ⟨j, hj, hfirst, -⟩ := step_invalidRegister_cases h
    exact ⟨j, hj, List.mem_of_find?_eq_some hfirst⟩

/-- Settles O40: the index rejected is above 7, and the context is that of the latched state. -/
theorem invalidRegisterRecordsFullContext : Obligations.InvalidRegisterRecordsFullContext := by
  intro s r c h
  obtain ⟨j, -, hfirst, hc⟩ := step_invalidRegister_cases h
  exact ⟨of_decide_eq_true (List.find?_some (p := fun x : Byte => decide (7 < x.toNat)) hfirst), hc⟩

/-! ### A change of the state that an instruction does not see -/

/-- The two-operand ALU instructions share one meaning (R94). -/
theorem exec_of_two_regOperands {a b : Byte} (hi : i.regOperands = [a, b]) (s : State) :
    exec i s = binaryAlu i.mnemonic a b s := by
  cases i with
  | add | mul | mod | cmp | and | or | xor | shl | shr => cases hi; rfl
  | _ => cases hi

/-- Each effect is what the instruction answers, so effects and answers are one relation. -/
theorem ExecEffect.exec_eq (h : ExecEffect i s t) : exec i s = .next t := by
  cases h with
  | hlt => rfl
  | ret => exact execRet_eq s
  | push ha => exact execPush_of_some ha
  | pop ha => exact execPop_of_valid s ha
  | prn ha => exact execPrn_of_some ha
  | call ha => exact execCall_of_some ha
  | jmp ha => exact execJmp_of_some ha
  | taken hm hi ht ha => exact exec_branch_taken hm hi ht ha
  | untaken hm hi ht ha => exact exec_branch_untaken hm hi ht ha
  | not ha => exact execNot_of_some ha
  | ldi ha => exact execLdi_of_valid _ s ha
  | result hi ha hb hv => rw [exec_of_two_regOperands hi, binaryAlu_result ha hb hv]
  | flags ha hb => exact execCmp_of_some ha hb
  | zeroDivisor ha hb => exact execMod_of_zero ha hb

theorem ExecEffect.of_eq {u : State} (h : ExecEffect i s t) (htu : t = u) : ExecEffect i s u := htu ▸ h

/-- Two states in which an instruction checks the same registers, aborts with the same context and has corresponding
effects get corresponding answers. -/
theorem exec_eq_mapNext {u : State} {g : State → State} (hregs : checkedRegs i u = checkedRegs i s)
    (hctx : u.context = s.context) (hnext : ∀ t, ExecEffect i s t → ExecEffect i u (g t)) :
    exec i u = mapNext g (exec i s) := by
  cases hf : firstInvalid (checkedRegs i s) with
  | none =>
    obtain ⟨t, ht⟩ := exec_next_of_firstInvalid hf
    rw [ht, (hnext t (exec_next_effect ht)).exec_eq, mapNext]
  | some r =>
    have hs : exec i s = _ := exec_rejects_of_firstInvalid hf
    have hu : exec i u = _ := exec_rejects_of_firstInvalid (hregs ▸ hf)
    rw [hs, hu, hctx, mapNext]

/-! ### FL is seen through bit E alone (R35, R151) -/

theorem branchTaken_congr {fl fl' : Byte} (h : i.mnemonic = .JEQ ∨ i.mnemonic = .JNE → fl.getLsbD 0 = fl'.getLsbD 0) :
    branchTaken i fl = branchTaken i fl' := by
  cases i with
  | jeq a => exact h (.inl rfl)
  | jne a => exact congrArg Bool.not (h (.inr rfl))
  | _ => rfl

theorem checkedRegs_withFl {v : Byte} (h : branchTaken i v = branchTaken i s.fl) :
    checkedRegs i (withFl v s) = checkedRegs i s := by
  cases i with
  | jeq a | jne a => simp only [checkedRegs, withFl, h]
  | _ => rfl

/-- An instruction but CMP does the same with another FL that branches alike, and leaves it. -/
theorem ExecEffect.withFl {v : Byte} (hE : branchTaken i v = branchTaken i s.fl) (hne : i.mnemonic ≠ .CMP)
    (h : ExecEffect i s t) : ExecEffect i (withFl v s) (withFl v t) := by
  cases h with
  | hlt => exact .hlt
  | ret => exact .ret
  | push ha => exact .push ha
  | pop ha => exact .pop ha
  | prn ha => exact .prn ha
  | call ha => exact .call ha
  | jmp ha => exact .jmp ha
  | taken hm hi ht ha => exact .taken hm hi (hE.trans ht) ha
  | untaken hm hi ht ha => exact .untaken hm hi (hE.trans ht) ha
  | not ha => exact .not ha
  | ldi ha => exact .ldi ha
  | result hi ha hb hv => exact .result hi ha hb hv
  | flags => exact absurd rfl hne
  | zeroDivisor ha hb => exact .zeroDivisor ha hb

/-- CMP's next state. -/
theorem ExecEffect.eq_of_CMP (hm : i.mnemonic = .CMP) (h : ExecEffect i s t) :
    ∃ a b A B, i = .cmp a b ∧ s.reg? a = some A ∧ s.reg? b = some B ∧ t = advance .CMP (writeFl (cmpFlags A B) s) := by
  cases h with
  | flags ha hb => exact ⟨_, _, _, _, rfl, ha, hb, rfl⟩
  | result _ _ _ hv => exact absurd hm (ne_CMP_of_alu_result hv)
  | taken hb | untaken hb => rcases hb with hb | hb <;> exact nomatch hb.symm.trans hm
  | hlt | ret | push | pop | prn | call | jmp | not | ldi | zeroDivisor => cases hm

/-- CMP writes the whole of FL, so another FL leaves no trace. -/
theorem ExecEffect.withFl_of_CMP {v : Byte} (hm : i.mnemonic = .CMP) (h : ExecEffect i s t) :
    ExecEffect i (Machine.withFl v s) t := by
  obtain ⟨a, b, A, B, rfl, ha, hb, rfl⟩ := h.eq_of_CMP hm
  exact .flags (s := Machine.withFl v s) ha hb

/-- Settles O30: with bit E held for the branches, the effects under the two values of FL correspond. -/
theorem onlyBranchesReadFlAndOnlyBitE : Obligations.OnlyBranchesReadFlAndOnlyBitE := by
  intro i s v hbit
  have hE : branchTaken i v = branchTaken i s.fl := branchTaken_congr hbit
  refine exec_eq_mapNext (checkedRegs_withFl hE) rfl fun t h => ?_
  split
  · next hm => exact h.withFl_of_CMP hm
  · next hne => exact h.withFl hE hne

/-! ### The opcode map is seen through operand counts and MOD's byte alone (R62, R80, R85) -/

theorem checkedRegs_withMap (i : Instr) (om : OpcodeMap) (s : State) :
    checkedRegs i (withMap om s) = checkedRegs i s := by
  cases i <;> rfl

/-- The advance of an operation is the same under a map that counts its operands alike. -/
theorem advance_withMap {om : OpcodeMap} {m : Mnemonic} (u : State) (h : m.length om = m.length u.params.opcodeMap) :
    advance m (withMap om u) = withMap om (advance m u) := by
  simp only [advance, withMap, h]

theorem ExecEffect.withMap_advance {om : OpcodeMap} {u : State}
    (hlen : i.mnemonic.length om = i.mnemonic.length u.params.opcodeMap)
    (h : ExecEffect i (withMap om s) (advance i.mnemonic (withMap om u))) :
    ExecEffect i (withMap om s) (withMap om (advance i.mnemonic u)) :=
  h.of_eq (advance_withMap u hlen)

/-- The zero-divisor halt is the same under a map with the same byte for MOD. -/
theorem haltModZero_withMap {om : OpcodeMap} (h : om.byte .MOD = s.params.opcodeMap.byte .MOD) :
    haltModZero (withMap om s) = withMap om (haltModZero s) := by
  simp only [haltModZero, withMap, h]
  rfl

/-- An instruction does the same under another map that counts its operands alike, with MOD's byte where it is MOD. -/
theorem ExecEffect.withMap {om : OpcodeMap} (hMOD : i.mnemonic = .MOD → om.byte .MOD = s.params.opcodeMap.byte .MOD)
    (hlen : i.mnemonic.length om = i.mnemonic.length s.params.opcodeMap) (h : ExecEffect i s t) :
    ExecEffect i (withMap om s) (withMap om t) := by
  cases h with
  | hlt => exact .withMap_advance hlen .hlt
  | ret => exact .ret
  | push ha => exact .withMap_advance hlen (.push ha)
  | pop ha => exact .withMap_advance hlen (.pop ha)
  | prn ha => exact .withMap_advance hlen (.prn ha)
  | call ha => exact .call ha
  | jmp ha => exact .jmp ha
  | taken hm hi ht ha => exact .taken hm hi ht ha
  | untaken hm hi ht ha => exact .withMap_advance hlen (.untaken hm hi ht ha)
  | not ha => exact .withMap_advance hlen (.not ha)
  | ldi ha => exact .withMap_advance hlen (.ldi ha)
  | result hi ha hb hv => exact .withMap_advance hlen (.result hi ha hb hv)
  | flags ha hb => exact .withMap_advance hlen (.flags ha hb)
  | zeroDivisor ha hb => exact .of_eq (.zeroDivisor ha hb) (haltModZero_withMap (hMOD rfl))

/-- Settles O55: the effects under the two maps correspond. -/
theorem onlyOperandCountsOfTheMapMatter : Obligations.OnlyOperandCountsOfTheMapMatter := fun i s om hMOD hcount =>
  exec_eq_mapNext (checkedRegs_withMap i om s) rfl fun _ h => h.withMap hMOD (congrArg (1 + ·) hcount)

/-! ### A register outside the list of R26 is not seen -/

section
variable {r : Byte} (v : Byte)

theorem toNat_ne_of_ne {a : Byte} (h : r ≠ a) : r.toNat ≠ a.toNat := fun e => h (BitVec.eq_of_toNat_eq e)

/-- A register write is not seen through another index. -/
theorem reg?_setReg_of_ne (s : State) {a : Byte} (h : r ≠ a) : (s.setReg r v).reg? a = s.reg? a := by
  rw [State.reg?, State.setReg_regs, Vector.getElem?_setIfInBounds_ne (toNat_ne_of_ne h), State.reg?]

/-- Writes of two registers commute. -/
theorem setReg_comm (s : State) {a : Byte} (w : Byte) (h : r ≠ a) :
    (s.setReg r v).setReg a w = (s.setReg a w).setReg r v := by
  have hregs : (s.regs.setIfInBounds r.toNat v).setIfInBounds a.toNat w =
      (s.regs.setIfInBounds a.toNat w).setIfInBounds r.toNat v :=
    Vector.toArray_inj.mp (by simp only [Vector.toArray_setIfInBounds, Array.setIfInBounds_comm v w (toNat_ne_of_ne h)])
  simp only [State.setReg, hregs]

/-- The later of two writes of one register stands. -/
theorem setReg_setReg_same (s : State) (w : Byte) : (s.setReg r v).setReg r w = s.setReg r w := by
  simp only [State.setReg, Vector.setIfInBounds_setIfInBounds]

/-- A write of SP is a write of register 7 (R22). -/
theorem setSp_eq_setReg (s : State) (w : Byte) : s.setSp w = s.setReg 7 w := by
  have hregs : s.regs.set 7 w = s.regs.setIfInBounds 7 w := Vector.ext fun k hk => by
    rw [Vector.getElem_set, Vector.getElem_setIfInBounds]
  exact congrArg (fun rs => { s with regs := rs }) hregs

theorem decSp_setReg (s : State) (h : r ≠ 7) : decSp (s.setReg r v) = (decSp s).setReg r v := by
  rw [decSp, decSp, setSp_eq_setReg, setSp_eq_setReg, sp_setReg_of_ne s v h, setReg_comm v s _ h]

theorem incSp_setReg (s : State) (h : r ≠ 7) : incSp (s.setReg r v) = (incSp s).setReg r v := by
  rw [incSp, incSp, setSp_eq_setReg, setSp_eq_setReg, sp_setReg_of_ne s v h, setReg_comm v s _ h]

theorem popAddr_setReg (s : State) (h : r ≠ 7) : popAddr (s.setReg r v) = popAddr s :=
  congrArg BitVec.toNat (sp_setReg_of_ne s v h)

/-- A push does not see another register than SP. -/
theorem pushByte_setReg (s : State) (w : Byte) (h : r ≠ 7) : pushByte (s.setReg r v) w = (pushByte s w).setReg r v := by
  have haddr : pushAddr (s.setReg r v) = pushAddr s := by rw [pushAddr, sp_setReg_of_ne s v h, pushAddr]
  rw [pushByte, haddr, decSp_setReg v s h]
  rfl

/-- The byte at SP does not see another register than SP. -/
theorem read_popAddr_setReg (s : State) (h : r ≠ 7) :
    Memory.read (s.setReg r v).mem (popAddr (s.setReg r v)) = Memory.read s.mem (popAddr s) := by
  rw [popAddr_setReg v s h, State.setReg_mem]

/-- A pop does not see another register than SP, and leaves one that it does not write. -/
theorem popByte_setReg (s : State) {a : Byte} (h : r ≠ 7) (ha : r ≠ a) :
    popByte a (s.setReg r v) = (popByte a s).setReg r v := by
  rw [popByte, read_popAddr_setReg v s h, setReg_comm v s _ ha, incSp_setReg v _ h, popByte]

/-- A pop does not see what its own register held before. -/
theorem popByte_setReg_same (s : State) (h : r ≠ 7) : popByte r (s.setReg r v) = popByte r s := by
  rw [popByte, read_popAddr_setReg v s h, setReg_setReg_same, popByte]

theorem mem_readRegs_of_taken {a : Byte} (hm : i.mnemonic = .JEQ ∨ i.mnemonic = .JNE) (hi : i.regOperands = [a])
    (ht : branchTaken i s.fl = true) : a ∈ readRegs i s.fl := by
  cases i with
  | jeq | jne => cases hi; simp [readRegs, ht]
  | _ => simp [Instr.mnemonic] at hm

theorem readRegs_of_two_regOperands {a b : Byte} (hi : i.regOperands = [a, b]) (fl : Byte) :
    readRegs i fl = [a, b] := by
  cases i with
  | add | mul | mod | cmp | and | or | xor | shl | shr => exact hi
  | _ => cases hi

/-- An instruction does the same with another value in a register it neither reads nor writes, and leaves it. -/
theorem ExecEffect.setReg_of_not_written (hread : ∀ a ∈ readRegs i s.fl, r ≠ a) (hwrite : ∀ a ∈ writtenRegs i, r ≠ a)
    (h : ExecEffect i s t) : ExecEffect i (s.setReg r v) (t.setReg r v) := by
  have same {u : State} {a A : Byte} (hne : r ≠ a) (hA : u.reg? a = some A) : (u.setReg r v).reg? a = some A :=
    (reg?_setReg_of_ne v u hne).trans hA
  cases h with
  | hlt => exact .hlt
  | ret =>
    have h7 := hread 7 (.head _)
    exact .of_eq .ret (by rw [read_popAddr_setReg v s h7, incSp_setReg v s h7]; rfl)
  | @push _ a w ha =>
    have h7 := hread 7 (.tail _ (.head _))
    exact .of_eq (.push (by rw [decSp_setReg v s h7]; exact same (hread a (.head _)) ha))
      (congrArg (advance .PUSH) (pushByte_setReg v s w h7))
  | @pop _ a ha =>
    exact .of_eq (.pop ha)
      (congrArg (advance .POP) (popByte_setReg v s (hread 7 (.head _)) (hwrite a (.head _))))
  | prn ha => exact .prn (same (hread _ (.head _)) ha)
  | @call _ a A ha =>
    have h7 := hread 7 (.tail _ (.head _))
    exact .of_eq (.call (by rw [decSp_setReg v s h7]; exact same (hread a (.head _)) ha))
      (congrArg (loadPc A) (pushByte_setReg v s (returnAddress s) h7))
  | jmp ha => exact .jmp (same (hread _ (.head _)) ha)
  | taken hm hi ht ha => exact .taken hm hi ht (same (hread _ (mem_readRegs_of_taken hm hi ht)) ha)
  | untaken hm hi ht ha => exact .untaken hm hi ht ha
  | not ha =>
    have hne := hread _ (.head _)
    exact .of_eq (.not (same hne ha)) (congrArg (advance .NOT) (setReg_comm v s _ hne))
  | ldi ha => exact .of_eq (.ldi ha) (congrArg (advance .LDI) (setReg_comm v s _ (hwrite _ (.head _))))
  | @result _ _ a b A B w hi ha hb hv =>
    rw [readRegs_of_two_regOperands hi] at hread
    have hne := hread a (.head _)
    exact .of_eq (.result hi (same hne ha) (same (hread b (.tail _ (.head _))) hb) hv)
      (congrArg (advance i.mnemonic) (setReg_comm v s _ hne))
  | flags ha hb => exact .flags (same (hread _ (.head _)) ha) (same (hread _ (.tail _ (.head _))) hb)
  | zeroDivisor ha hb => exact .zeroDivisor (same (hread _ (.head _)) ha) (same (hread _ (.tail _ (.head _))) hb)

/-- The instructions that write a register they do not read are LDI and POP. -/
theorem eq_ldi_or_pop_of_written {fl : Byte} (hread : r ∉ readRegs i fl) (hwrite : r ∈ writtenRegs i) :
    (∃ imm, i = .ldi r imm) ∨ i = .pop r ∧ r ≠ 7 := by
  cases i <;> simp_all [readRegs, writtenRegs]

theorem ExecEffect.eq_of_ldi {a imm : Byte} (h : ExecEffect (.ldi a imm) s t) :
    validReg a ∧ t = advance .LDI (s.setReg a imm) := by
  cases h with
  | ldi ha => exact ⟨ha, rfl⟩
  | taken hm | untaken hm => simp [Instr.mnemonic] at hm
  | result hi => cases hi

theorem ExecEffect.eq_of_pop {a : Byte} (h : ExecEffect (.pop a) s t) :
    validReg a ∧ t = advance .POP (popByte a s) := by
  cases h with
  | pop ha => exact ⟨ha, rfl⟩
  | taken hm | untaken hm => simp [Instr.mnemonic] at hm
  | result hi => cases hi

/-- LDI does not see what its register held before. -/
theorem ExecEffect.setReg_ldi {imm : Byte} (h : ExecEffect (.ldi r imm) s t) :
    ExecEffect (.ldi r imm) (s.setReg r v) t := by
  obtain ⟨ha, rfl⟩ := h.eq_of_ldi
  exact .of_eq (.ldi ha) (congrArg (advance .LDI) (setReg_setReg_same v s imm))

/-- POP does not see what its register held before, where that is not SP. -/
theorem ExecEffect.setReg_pop (h7 : r ≠ 7) (h : ExecEffect (.pop r) s t) : ExecEffect (.pop r) (s.setReg r v) t := by
  obtain ⟨ha, rfl⟩ := h.eq_of_pop
  exact .of_eq (.pop ha) (congrArg (advance .POP) (popByte_setReg_same v s h7))

/-- An instruction does the same whatever a register it writes and does not read held before. -/
theorem ExecEffect.setReg_of_written (hread : r ∉ readRegs i s.fl) (hwrite : r ∈ writtenRegs i)
    (h : ExecEffect i s t) : ExecEffect i (s.setReg r v) t := by
  rcases eq_ldi_or_pop_of_written hread hwrite with ⟨imm, rfl⟩ | ⟨rfl, h7⟩
  · exact h.setReg_ldi v
  · exact h.setReg_pop v h7

end

theorem checkedRegs_setReg (i : Instr) (s : State) (r v : Byte) : checkedRegs i (s.setReg r v) = checkedRegs i s := by
  cases i <;> rfl

/-- Settles O28: the effects with and without the change of the register correspond. -/
theorem onlyListedInstructionsReadRegisters : Obligations.OnlyListedInstructionsReadRegisters := by
  refine fun i s r v hread => exec_eq_mapNext (checkedRegs_setReg i s r v) rfl fun t h => ?_
  split
  · next hwrite => exact h.setReg_of_written v hread hwrite
  · next hwrite => exact h.setReg_of_not_written v (fun a ha e => hread (e ▸ ha)) fun a ha e => hwrite (e ▸ ha)

end Sys2Proof.Machine

/-! The step: fetch, decode and the ends of a run (files 40_execution_cycle.md, 60_exceptions.md and
70_reset_and_hazards.md). -/

namespace Sys2Proof.Machine

variable {i : Instr} {s t : State}

/-! ### What a step runs (R77, R78, R80) -/

/-- The step of a running machine that fetches an instruction in range runs it with its bytes latched. -/
theorem step_eq_exec_latched (hrun : s.run = .running) (hpc : s.pc ≤ 253) (hop : fetchedOp s = .known i) :
    step s = retireResult (exec i (latched s)) := by
  rw [step_of_running hrun, runCycle_of_le hpc, hop]
  rfl

/-- Settles O34: the three bytes are the window a fetch reads. -/
theorem stepRunsDecodedInstruction : Obligations.StepRunsDecodedInstruction := fun _ _ => step_eq_exec_latched

/-- The bytes at `pc` are the bytes of a list that stands there, as far as both go. -/
theorem take_bytes_windowAt {bs : List Byte} {n : Nat} (hn : n ≤ bs.length) (hthree : n ≤ 3)
    (h : ∀ k, (hk : k < bs.length) → Memory.read s.mem (s.pc + k) = bs[k]) :
    (windowAt s).bytes.take n = bs.take n := by
  have hlen : (windowAt s).bytes.length = 3 := rfl
  have hbyte (k : Nat) (hk : k < 3) : (windowAt s).bytes[k] = Memory.read s.mem (s.pc + k) := by
    match k, hk with
    | 0, _ | 1, _ | 2, _ => rfl
  refine List.ext_getElem (by simp [hlen, hn, hthree]) fun k hk hk' => ?_
  simp only [List.length_take, lt_min_iff] at hk hk'
  rw [List.getElem_take, List.getElem_take, hbyte k hk.2, h k hk'.2]

/-- Settles O54: the window begins with the bytes decode reads. -/
theorem encodedInstructionRuns : Obligations.EncodedInstructionRuns := by
  intro s i hw hrun hpc hbytes
  obtain ⟨hlen, hthree⟩ := operands_le_encode hw i
  exact step_eq_exec_latched hrun hpc ((decode_eq_known_iff hw).mpr (take_bytes_windowAt hlen hthree hbytes))

/-! ### Fetches out of range (R79, R161) -/

theorem step_of_fetch_error {f : Fault} (hrun : s.run = .running) (h : fetch s = .error f) : step s = .fault f := by
  rw [step_of_running hrun, runCycle, h]

/-- Settles O35: the read that aborts is the first at 256 or above. -/
theorem fetchPastTheEndAborts : Obligations.FetchPastTheEndAborts := fun _ hrun =>
  ⟨fun h => step_of_fetch_error hrun (fetch_of_eq_254 h), fun h => step_of_fetch_error hrun (fetch_of_eq_255 h),
    fun h => step_of_fetch_error hrun (fetch_of_ge_256 h)⟩

/-- A step that raises OutOfBounds was running past the range, and names the first address at 256 or above. -/
theorem step_outOfBounds_cases {a : Nat} {c : AbortContext} (h : step s = .fault (.outOfBounds a c)) :
    s.run = .running ∧ 254 ≤ s.pc ∧ a = max 256 s.pc ∧ c.pc = s.pc := by
  obtain ⟨hrun, ⟨hpc, l, hl⟩ | ⟨-, i, -, hexec⟩⟩ := step_fault_cases h
  · cases hl
    exact ⟨hrun, hpc, rfl, rfl⟩
  · obtain ⟨r, hr⟩ := exec_fault_eq hexec
    cases hr

/-- Settles O39: an instruction raises InvalidRegister only, and a fetch OutOfBounds exactly past the range. -/
theorem outOfBoundsOnlyFromFetch : Obligations.OutOfBoundsOnlyFromFetch := by
  refine ⟨fun i s a c h => ?_, fun s => ⟨?_, ?_⟩, fun s a c h => (step_outOfBounds_cases h).2.2⟩
  · obtain ⟨r, hr⟩ := exec_fault_eq h
    cases hr
  · rintro ⟨a, c, h⟩
    obtain ⟨hrun, hpc, -⟩ := step_outOfBounds_cases h
    exact ⟨hrun, hpc⟩
  · rintro ⟨hrun, hpc⟩
    obtain ⟨l, hl⟩ := fetch_of_gt hpc
    exact ⟨_, _, step_of_fetch_error hrun hl⟩

/-! ### Unnamed opcodes (R70, R84) -/

/-- Settles O37: the byte at `pc` decodes as unnamed. -/
theorem unnamedOpcodeIsRefused : Obligations.UnnamedOpcodeIsRefused := by
  intro s hrun hpc hmap hnamed
  have hop : fetchedOp s = .unnamed (Memory.read s.mem s.pc) := decode_of_unnamed (w := windowAt s) hmap hnamed
  rw [step_of_running hrun, runCycle_of_le hpc, hop]
  rfl

/-- A window decodes as unnamed only with its own opcode byte, one of UNNAMED_OPCODES. -/
theorem mem_of_decode_unnamed {p : Params} {w : Window} {ir : Byte} (h : decode p w = .unnamed ir) :
    ir = w.ir ∧ ir ∈ p.unnamedOpcodes := by
  rw [decode_eq] at h
  cases hk : knownOp p.opcodeMap w.ir with
  | some m => simp [hk] at h
  | none =>
    rw [hk] at h
    dsimp only at h
    split at h
    · next hmem => cases h; exact ⟨rfl, hmem⟩
    · cases h

/-- No instruction is refused. -/
theorem exec_ne_refused (i : Instr) (s : State) (r : Refusal) : exec i s ≠ .refused r := fun h => by
  rcases exec_completesOrRejects i s with ⟨t, ht⟩ | ⟨a, ha⟩
  · exact nomatch ht.symm.trans h
  · exact nomatch ha.symm.trans h

/-- A step that is refused fetched an unnamed opcode. -/
theorem step_refused_cases {r : Refusal} (h : step s = .refused r) :
    ∃ ir, fetchedOp s = .unnamed ir ∧ r = .unnamedOpcode ir s.pc := by
  by_cases hrun : s.run = .running
  case neg => exact nomatch (step_of_not_running hrun).symm.trans h
  by_cases hpc : s.pc ≤ 253
  case neg =>
    obtain ⟨l, hl⟩ := fetch_of_gt (s := s) (by omega)
    exact nomatch (step_of_fetch_error hrun hl).symm.trans h
  rw [step_of_running hrun, runCycle_of_le hpc] at h
  cases hop : fetchedOp s with
  | known i =>
    rw [hop, dispatch] at h
    cases hexec : exec i (latched s) with
    | next u => rw [hexec] at h; cases h
    | fault f => rw [hexec] at h; cases h
    | refused r => exact absurd hexec (exec_ne_refused i _ r)
  | unnamed ir => rw [hop] at h; cases h; exact ⟨ir, rfl, rfl⟩
  | unknown ir => rw [hop] at h; cases h

/-- Settles O42: the refusal names the byte at `pc`, which is one of UNNAMED_OPCODES. -/
theorem onlyUnnamedOpcodesAreRefused : Obligations.OnlyUnnamedOpcodesAreRefused := by
  intro s r h
  obtain ⟨ir, hop, rfl⟩ := step_refused_cases h
  obtain ⟨rfl, hmem⟩ := mem_of_decode_unnamed hop
  exact ⟨rfl, hmem⟩

/-! ### The end of a run (R38, R91) -/

/-- A run of one step more that answers a state: the step did, and the rest of the run from there. -/
theorem run_succ_eq_next {k : Nat} :
    Host.Core.run Sys2Proof.core (k + 1) s = .next t ↔
      ∃ u, step s = .next u ∧ Host.Core.run Sys2Proof.core k u = .next t := by
  have coreStep {r : Result} (h : step s = r) : Sys2Proof.core.step s = r := h
  cases h : step s with
  | next u => simp [Host.Core.run, coreStep h]
  | fault f => simp [Host.Core.run, coreStep h]
  | refused r => simp [Host.Core.run, coreStep h]

/-- Settles O38, by induction on the number of steps. -/
theorem endedMachineNeverChanges : Obligations.EndedMachineNeverChanges := by
  intro k s h
  induction k with
  | zero => rfl
  | succ k ih => exact run_succ_eq_next.mpr ⟨s, step_of_not_running h, ih⟩

/-- Settles O43, by the cases of a step and of an instruction's effect. -/
theorem runEndsOnlyByHltOrModZero : Obligations.RunEndsOnlyByHltOrModZero := by
  intro s t hrun h
  rcases step_next_cases h with ⟨hne, -⟩ | ⟨-, -, ⟨i, u, hop, hexec, rfl⟩ | ⟨ir, -, rfl⟩⟩
  · exact absurd hrun hne
  · rcases (exec_next_effect hexec).run_cases with hu | ⟨rfl, hu⟩ | ⟨a, b, rfl, hb, hu⟩
    · exact .inl (hu.trans hrun)
    · exact .inr (.inl ⟨hu, hop⟩)
    · exact .inr (.inr ⟨hu, a, b, hop, hb⟩)
  · exact .inl hrun

/-- Settles O45: no instruction and no skip writes them. -/
theorem launchParametersAreFixed : Obligations.LaunchParametersAreFixed := by
  intro s t h
  rcases step_next_cases h with ⟨-, rfl⟩ | ⟨-, -, ⟨i, u, -, hexec, rfl⟩ | ⟨ir, -, rfl⟩⟩
  · rfl
  · exact (exec_next_effect hexec).latch_params.2
  · rfl

/-! ### The fetch window (R59, R187, R192) -/

/-- Settles O46: the operand is in the latches before the store, and the store goes to the address after `pc`. -/
theorem pushUsesOperandReadAtFetch : Obligations.PushUsesOperandReadAtFetch := by
  intro s a A hw hrun hpc hop ha hA hne hsp
  have hfetched : fetchedOp s = .known (.push a) := by
    rw [fetchedOp, decode_of_byte hw (w := windowAt s) hop]
    exact congrArg (fun x => Decoded.known (.push x)) ha
  have hsp0 : s.sp ≠ 0 := fun h0 => by rw [h0] at hsp; exact absurd hsp (by simp)
  have haddr : pushAddr (latched s) = s.pc + 1 := by
    rw [pushAddr_of_sp_ne_zero (s := latched s) hsp0, latched_sp, hsp]
    rfl
  have hstep := step_of_fetched_known hfetched hrun hpc (exec_push_of_ne (s := latched s) hA hne)
  have hread := read_pushByte (latched s) A
  rw [haddr] at hread
  exact ⟨_, hstep, hread, (congrArg BitVec.toNat (sp_pushByte (latched s) A)).trans haddr, rfl⟩

/-- Settles O47: the fetch reads its opcode byte from the memory the PUSH has written. -/
theorem storeIsSeenByNextFetch : Obligations.StoreIsSeenByNextFetch := by
  intro s a A hA hne haddr hpc
  have hfetch := fetch_of_le (s := advance .PUSH (pushByte s A)) hpc
  have hread : (windowAt (advance .PUSH (pushByte s A))).ir = A := by
    have hcell := read_pushByte s A
    rw [← haddr] at hcell
    exact hcell
  exact ⟨_, _, _, exec_push_of_ne hA hne, hfetch, hread⟩

end Sys2Proof.Machine

/-! Boot, the invariant of every reachable state, and runs from it (files 10_state.md and 70_reset_and_hazards.md). -/

namespace Sys2Proof.Machine

variable {i : Instr} {s t u : State}

/-! ### Boot (R44, R180 to R182) -/

theorem Launch.imageFits_iff (l : Launch) : l.imageFits ↔ l.image.length ≤ 256 := by
  rw [Launch.imageFits, Nat.zero_add]

/-- Settles O49: an image of more than 256 bytes does not fit. -/
theorem oversizedImageIsRefused : Obligations.OversizedImageIsRefused := fun l h =>
  boot_of_not_fits (mt l.imageFits_iff.mp (Nat.not_le.mpr h))

/-- The registers of a launch, as a list with SP_RESET put after INIT_X. -/
theorem Launch.state_reg? (l : Launch) (i : Byte) :
    l.state.reg? i = (l.initX.toList.insertIdx 7 0xF4)[i.toNat]? := by
  rw [State.reg?, ← Vector.getElem?_toList]
  rfl

theorem Launch.state_reg?_seven (l : Launch) : l.state.reg? 7 = some 0xF4 := by
  rw [l.state_reg?]
  exact List.getElem?_insertIdx_self.trans (if_pos (by simp))

theorem Launch.state_reg?_initX (l : Launch) (k : Fin 7) : l.state.reg? (BitVec.ofNat 8 k) = some l.initX[k] := by
  have hk : (BitVec.ofNat 8 (k : Nat)).toNat = k := (byte_ofNat_toNat k).trans (Nat.mod_eq_of_lt (by omega))
  rw [l.state_reg?, hk, List.getElem?_insertIdx_of_lt k.isLt, Vector.getElem?_toList]
  exact Vector.getElem?_eq_getElem k.isLt

/-- The image reads back from address 0, and INIT_MEM behind it. -/
theorem Launch.state_read (l : Launch) (a : Nat) :
    Memory.read l.state.mem a = if h : a < l.image.length then l.image[a] else Memory.read l.initMem a := by
  have hread : Memory.read l.state.mem a = _ := Memory.read_writeList l.initMem 0 a l.image
  simpa using hread

/-- A launch whose image fits starts in the invariant. -/
theorem Launch.state_inv {l : Launch} (hfits : l.imageFits) (hmem : Memory.wf l.initMem)
    (hparams : Params.wf l.params) : Inv l.state where
  mem := Launch.state_mem_wf hfits hmem
  pc := Nat.zero_le _
  latch := rfl
  notAborted _ h := nomatch h
  params := hparams

/-- Settles O48: boot answers the launch's state, and the table of R44 is read off it. -/
theorem bootGivesResetValues : Obligations.BootGivesResetValues := by
  intro l hmem hparams hlen
  have hfits := l.imageFits_iff.mpr hlen
  refine ⟨l.state, boot_of_fits hfits, l.state_reg?_seven, l.state_reg?_initX, rfl, rfl, fun a ha => ?_, fun a ha => ?_,
    rfl, rfl, rfl, rfl, rfl, Launch.state_inv hfits hmem hparams⟩
  · rw [l.state_read, dif_pos ha]
  · rw [l.state_read, dif_neg (Nat.not_lt.mpr ha)]

/-- The reset state is the state of the bare launch. -/
theorem reset_eq_bare_state : State.reset = Launch.bare.state := by decide

/-- Settles O50: reset is the bare launch, whose state meets the invariant. -/
theorem resetMeetsInvariant : Obligations.ResetMeetsInvariant := by
  have hfits : Launch.bare.imageFits := by decide
  refine ⟨?_, by decide, ?_⟩
  · rw [reset_eq_bare_state]
    exact Launch.state_inv hfits Memory.wf_nil Params.defaults_wf
  · rw [reset_eq_bare_state]
    exact boot_of_fits hfits

/-! ### The invariant is kept (R31, R42, R89, R160) -/

/-- An instruction keeps the canonical form of memory: what it stores is in range. -/
theorem ExecEffect.mem_wf (h : ExecEffect i s t) (hmem : Memory.wf s.mem) : Memory.wf t.mem := by
  rcases h.mem_cases with ht | ⟨-, v, ht⟩ <;> rw [ht]
  · exact hmem
  · exact Memory.wf_write v (pushAddr_lt s) hmem

/-- An instruction fetched in range leaves `pc` at most 256: it advances by no more than MAX_INSN_LEN. -/
theorem ExecEffect.pc_le (h : ExecEffect i s t) (hw : s.params.opcodeMap.wf) (hpc : s.pc ≤ 253) : t.pc ≤ 256 := by
  have hlen := hw.length_le i.mnemonic
  rcases h.pc_cases with ⟨-, ht⟩ | ⟨-, ⟨-, ht⟩ | ⟨-, -, ht⟩⟩
  · omega
  · omega
  · have := modZeroPc_cases s
    omega

/-- An instruction does not abort the machine and go on. -/
theorem ExecEffect.run_ne_aborted (h : ExecEffect i s t) (hrun : ∀ f, s.run ≠ .aborted f) (f : Fault) :
    t.run ≠ .aborted f := by
  rcases h.run_cases with ht | ⟨-, ht⟩ | ⟨-, -, -, -, ht⟩ <;> rw [ht]
  · exact hrun f
  · exact nofun
  · exact nofun

/-- An instruction run on latched bytes and retired keeps the invariant. -/
theorem Inv.retire_exec (h : Inv s) (hpc : s.pc ≤ 253) (heff : ExecEffect i (latched s) u) : Inv (retire u) where
  mem := heff.mem_wf h.mem
  pc := heff.pc_le h.params.1 hpc
  latch := rfl
  notAborted := heff.run_ne_aborted h.notAborted
  params := heff.latch_params.2 ▸ h.params

/-- The skip of an unknown opcode keeps the invariant. -/
theorem Inv.retire_skipUnknown (h : Inv s) (hpc : s.pc ≤ 253) (ir : Byte) :
    Inv (retire (skipUnknown ir (latched s))) where
  mem := h.mem
  pc := show s.pc + 1 ≤ 256 by omega
  latch := rfl
  notAborted := h.notAborted
  params := h.params

/-- Settles O51, by the cases of a step. -/
theorem stepKeepsInvariant : Obligations.StepKeepsInvariant := by
  intro s t hinv h
  rcases step_next_cases h with ⟨-, rfl⟩ | ⟨-, hpc, ⟨i, u, -, hexec, rfl⟩ | ⟨ir, -, rfl⟩⟩
  · exact hinv
  · exact hinv.retire_exec hpc (exec_next_effect hexec)
  · exact hinv.retire_skipUnknown hpc ir

/-! ### Runs (R8, R39) -/

/-- `t` has the launch parameters of `s`, and traces that extend its own. -/
structure Extends (s t : State) : Prop where
  params : t.params = s.params
  out : s.out <+: t.out
  dg : s.dg <+: t.dg

theorem Extends.refl (s : State) : Extends s s := ⟨rfl, List.prefix_rfl, List.prefix_rfl⟩

theorem Extends.trans (h : Extends s t) (h' : Extends t u) : Extends s u :=
  ⟨h'.params.trans h.params, h.out.trans h'.out, h.dg.trans h'.dg⟩

/-- A step appends at most one byte and one record. -/
theorem extends_of_step (h : step s = .next t) : Extends s t := by
  obtain ⟨hout, hdg⟩ := tracesGrowOnlyByTheirInstructions.2 s t h
  refine ⟨launchParametersAreFixed s t h, ?_, ?_⟩
  · rcases hout with hout | ⟨a, A, -, -, hout⟩ <;> rw [hout]
    · exact List.prefix_append s.out [A]
  · rcases hdg with hdg | ⟨ir, -, hdg⟩ | ⟨a, b, -, -, hdg⟩ <;> rw [hdg]
    · exact List.prefix_append s.dg _
    · exact List.prefix_append s.dg _

/-- Settles O52, by induction on the number of steps. -/
theorem runsKeepInvariantAndExtendTraces : Obligations.RunsKeepInvariantAndExtendTraces := by
  have run_extends (k : Nat) : ∀ s t, Inv s → Host.Core.run Sys2Proof.core k s = .next t → Inv t ∧ Extends s t := by
    induction k with
    | zero =>
      rintro s t hinv h
      cases h
      exact ⟨hinv, .refl s⟩
    | succ k ih =>
      intro s t hinv h
      obtain ⟨u, hstep, hrest⟩ := run_succ_eq_next.mp h
      obtain ⟨hinvT, hext⟩ := ih u t (stepKeepsInvariant s u hinv hstep) hrest
      exact ⟨hinvT, (extends_of_step hstep).trans hext⟩
  intro k s t hinv h
  obtain ⟨hinvT, hparams, hout, hdg⟩ := run_extends k s t hinv h
  exact ⟨hinvT, hparams, hout, hdg⟩

end Sys2Proof.Machine
